-- ==== Sys2Proof/Word.lean ====
section
/-! DEFINITION. The types the engine works on (rules R6, R10, R16, R17, R33): a lane, a byte, a command word, and byte
sequences. Plain abbreviations, so that the library's `BitVec` and `List` lemmas apply as they stand. -/

namespace Sys2Proof

/-- A lane: one 64-bit register of the lane file (R8, R10). -/
abbrev Lane := BitVec 64

/-- A byte, the spec's `u8` (R6). -/
abbrev Byte := BitVec 8

/-- A command word of format `K` (R33); also the width of `STATUS` and `FCMD` (R13, R14). -/
abbrev Word := BitVec 64

/-- A byte sequence: "a finite ordered list of `u8`" (R6). -/
abbrev Bytes := List Byte

/-- A 1600-bit state seen as 25 lanes `A[0..24]` (R10, R21); the number of lanes is part of the type. -/
abbrev Lanes := Vector Lane 25

/-- A 1600-bit state seen as 200 bytes `SB[0..199]` (R21); the type of the working state `WS` (R17). -/
abbrev StateBytes := Vector Byte 200

end Sys2Proof
end

