-- ==== Sys2Proof/Config.lean ====
section
/-! DEFINITION. The fixed parameters of the hardware (rule R4) and the two open parameters a model takes as arguments
(rule R5). The third open parameter, `PORT_MAP`, has no effect on any rule (R27) and is left out. -/

namespace Sys2Proof

/-- The open parameters of R5, fixed for one engine. `bufMax = none` is the spec's `unbounded`. The type of `outMax`
carries the spec's constraint `OUT_MAX ≤ 536870911`. -/
structure Config where
  /-- `BUF_MAX`: the greatest byte length of `IN`, `KEY`, `NAME`, `CUST`; `none` is unbounded. -/
  bufMax : Option Nat
  /-- `OUT_MAX`: the greatest byte length of `OUT`. -/
  outMax : Fin 536870912
  deriving DecidableEq, Repr

/-- The values R5 suggests for a model: `BUF_MAX` unbounded, `OUT_MAX = 536870911`. DESIGN CHOICE (log entry 3). -/
def Config.suggested : Config := { bufMax := none, outMax := 536870911 }

/-- `B`: the state width in bits (R4). -/
abbrev stateBits : Nat := 1600

/-- `CAP`: the capacity in bits of SHAKE256, cSHAKE256 and KMACXOF256 (R4). -/
abbrev capBits : Nat := 512

/-- `RB`: the block length in bytes at capacity 512, also the `w` of every `bytepad` call (R4). -/
abbrev rateBytes512 : Nat := 136

/-- `ENC_LIMIT`: the exclusive upper bound of an integer given to `left_encode` or `right_encode` (R4).
It is `2^2040`, written as the first number that needs more than 255 bytes (R80), which evaluates with small exponents. -/
abbrev encLimit : Nat := 256 ^ 255

/-- A legal capacity in bits (R65): a multiple of 8 from 0 to 1592, so that the rate is 1 to 200 whole bytes. -/
abbrev Capacity := { c : Nat // c % 8 = 0 ∧ c ≤ 1592 }

/-- The capacity of every unit but the bare `SPONGE` command (R4, R65). -/
abbrev cap512 : Capacity := ⟨capBits, by decide⟩

end Sys2Proof
end

