-- ==== Sys2Proof/Syntax.lean ====
section
/-! DEFINITION. The syntax of the engine: the five commands (rule R32), the five buffers (R16) and the nine port
operations of the host (R100). Commands are what `spec/opcode_table.json` lists; port operations have no binary
encoding (R100). -/

namespace Sys2Proof

/-- The five commands, one constructor per row of the opcode table (R32). The scalar operands are the fields of the
command word with the widths R33 gives them; the byte-sequence operands are buffers and are not in the word (R34). -/
inductive Instr where
  /-- `PERMUTE rounds`, op `0x01` (R61). -/
  | permute (rounds : BitVec 8)
  /-- `SPONGE cap, outbits`, op `0x02` (R72). -/
  | sponge (cap : BitVec 16) (outbits : BitVec 32)
  /-- `SHAKE256 outbits`, op `0x03` (R86). -/
  | shake256 (outbits : BitVec 32)
  /-- `CSHAKE256 outbits`, op `0x04` (R88). -/
  | cshake256 (outbits : BitVec 32)
  /-- `KMACXOF256 outbits`, op `0x05` (R93). -/
  | kmacxof256 (outbits : BitVec 32)
  deriving DecidableEq, Repr

/-- The five byte buffers (R16). `inp` is the spec's `IN`. -/
inductive BufName where
  | inp | key | name | cust | out
  deriving DecidableEq, Repr

/-- The nine port operations of the host (R100). Lane indices are naturals, since an index of any size above 24 has a
defined effect (R138). The buffer operand of `HWRBUF` is `none` for "a buffer that does not exist" (R138). -/
inductive PortOp where
  /-- `HRESET` (R101). -/
  | hreset
  /-- `HWRBUF b, X` (R102). -/
  | hwrbuf (b : Option BufName) (X : Bytes)
  /-- `HWRLANE i, v` (R103). -/
  | hwrlane (i : Nat) (v : Lane)
  /-- `HRDLANE i` (R104). -/
  | hrdlane (i : Nat)
  /-- `HISSUE w` (R105). -/
  | hissue (w : Word)
  /-- `HRDOUT` (R106). -/
  | hrdout
  /-- `HRDSTATUS` (R107). -/
  | hrdstatus
  /-- `HRDFCMD` (R108). -/
  | hrdfcmd
  /-- `HRDLEN b` (R109). -/
  | hrdlen (b : BufName)
  deriving DecidableEq, Repr

/-- A value a reading port operation returns: a `u64`, a byte sequence or a natural (R100, third column). -/
inductive PortValue where
  | u64 (v : Word)
  | bytes (X : Bytes)
  | natural (n : Nat)
  deriving DecidableEq, Repr

end Sys2Proof
end

