-- ==== Sys2Proof/WellFormed.lean ====
section
/-! DEFINITION. The operand domains of the commands that depend on the command word alone (the "domain" column of
`spec/opcode_table.json`; rules R59, R65, R135). A command outside its domain still has an encoding, and faults when
issued (R36). -/

namespace Sys2Proof

/-- `rounds` from 0 to 24 (R59, R133). -/
def roundsLegal (rounds : BitVec 8) : Bool := rounds.toNat ≤ 24

/-- A capacity whose rate is a positive whole number of bytes (R65, R134). -/
def capLegal (cap : BitVec 16) : Bool := cap.toNat % 8 = 0 && cap.toNat ≤ 1592

/-- A whole number of output bytes (R135). -/
def outbitsWhole (outbits : BitVec 32) : Bool := outbits.toNat % 8 = 0

/-- The operands of a command lie in the domains the opcode table gives them, apart from the bound `OUT_MAX`, which is
a parameter of the engine and not of the command. -/
def Instr.wellFormed : Instr → Bool
  | .permute rounds => roundsLegal rounds
  | .sponge cap outbits => capLegal cap && outbitsWhole outbits
  | .shake256 outbits => outbitsWhole outbits
  | .cshake256 outbits => outbitsWhole outbits
  | .kmacxof256 outbits => outbitsWhole outbits

end Sys2Proof
end

