-- ==== Sys2Proof/Decode.lean ====
section
/-! DEFINITION. The command word format `K` (rules R33, R34), the opcode table's match and mask values (R35), the total
decoder with its rejections by name (R36, R40), and the encoder written from the same tables. -/

namespace Sys2Proof

/-- `op = w[63:56]` (R33). -/
def opField (w : Word) : BitVec 8 := w.extractLsb' 56 8

/-- `rounds = w[55:48]` (R33). -/
def roundsField (w : Word) : BitVec 8 := w.extractLsb' 48 8

/-- `cap = w[47:32]` (R33). -/
def capField (w : Word) : BitVec 16 := w.extractLsb' 32 16

/-- `outbits = w[31:0]` (R33). -/
def outbitsField (w : Word) : BitVec 32 := w.extractLsb' 0 32

/-- Why a word is no command (R36); either way `HISSUE` raises `ILLEGAL_COMMAND` (R132). -/
inductive DecodeError where
  /-- `op` is `0x00` or `0x06` to `0xFF`. -/
  | unassignedOp
  /-- `op` is one of the five opcodes and a must-be-zero field has a non-zero bit. -/
  | unusedFieldNotZero
  deriving DecidableEq, Repr

/-- One row of the table of R35: a word `w` selects the row if and only if `(w & mask) = match`. -/
structure OpRow where
  mnemonic : String
  matchVal : Word
  mask : Word
  deriving DecidableEq, Repr

def rowPermute : OpRow := ⟨"PERMUTE", 0x0100000000000000, 0xFF00FFFFFFFFFFFF⟩
def rowSponge : OpRow := ⟨"SPONGE", 0x0200000000000000, 0xFFFF000000000000⟩
def rowShake256 : OpRow := ⟨"SHAKE256", 0x0300000000000000, 0xFFFFFFFF00000000⟩
def rowCshake256 : OpRow := ⟨"CSHAKE256", 0x0400000000000000, 0xFFFFFFFF00000000⟩
def rowKmacxof256 : OpRow := ⟨"KMACXOF256", 0x0500000000000000, 0xFFFFFFFF00000000⟩

/-- The opcode table (R35), in its order. -/
def opRows : List OpRow := [rowPermute, rowSponge, rowShake256, rowCshake256, rowKmacxof256]

/-- The selection test of R35. -/
def OpRow.selects (r : OpRow) (w : Word) : Bool := w &&& r.mask == r.matchVal

/-- The name of the rejection of a word that no row selects (R36). -/
def rejection (w : Word) : DecodeError :=
  if (opField w).toNat ∈ [1, 2, 3, 4, 5] then .unusedFieldNotZero else .unassignedOp

/-- Step (1) of the decoding order (R40): find the row of R35 that selects the word. Total on all 2^64 words. -/
def decode (w : Word) : Except DecodeError Instr :=
  if rowPermute.selects w then .ok (.permute (roundsField w))
  else if rowSponge.selects w then .ok (.sponge (capField w) (outbitsField w))
  else if rowShake256.selects w then .ok (.shake256 (outbitsField w))
  else if rowCshake256.selects w then .ok (.cshake256 (outbitsField w))
  else if rowKmacxof256.selects w then .ok (.kmacxof256 (outbitsField w))
  else .error (rejection w)

/-- The word of format `K` with the four fields given (R33). -/
def formatK (op rounds : BitVec 8) (cap : BitVec 16) (outbits : BitVec 32) : Word :=
  op ++ rounds ++ cap ++ outbits

/-- The word of a command (R32, R35, R38): its opcode, its operands in their fields, the unused fields zero. -/
def encode : Instr → Word
  | .permute rounds => formatK 0x01 rounds 0 0
  | .sponge cap outbits => formatK 0x02 0 cap outbits
  | .shake256 outbits => formatK 0x03 0 0 outbits
  | .cshake256 outbits => formatK 0x04 0 0 outbits
  | .kmacxof256 outbits => formatK 0x05 0 0 outbits

/-- The table row of a command (R32). -/
def Instr.row : Instr → OpRow
  | .permute _ => rowPermute
  | .sponge _ _ => rowSponge
  | .shake256 _ => rowShake256
  | .cshake256 _ => rowCshake256
  | .kmacxof256 _ => rowKmacxof256

/-- The command word whose bits are the low `nbits` bits of `w`, every bit above them zero. The word is a value and has
no byte order of its own (R31, R33). -/
def tableWord (nbits w : Nat) : Word := BitVec.ofNat 64 (w % 2 ^ nbits)

/-- The instruction the decoder reads from a word numbered as the opcode table numbers its bits. -/
def decodeTableWord (nbits w : Nat) : Option Instr :=
  match decode (tableWord nbits w) with
  | .ok i => some i
  | .error _ => none

end Sys2Proof
end

