-- ==== Sys2Proof/Machine/State.lean ====
section
/-! DEFINITION. The state of the engine (rules R10 to R19), its reset value (R19), the cause names (R131), and the
reasons a step could stop. All of it is plain data. -/

namespace Sys2Proof.Machine

/-- The named causes of a fault (R131). The engine's faults are not stops of the model: entering one is a next state
(R136). -/
inductive Cause where
  /-- The word matches no command (R132); raised by `HISSUE`. -/
  | illegalCommand
  /-- `rounds > 24` (R133); raised by `PERMUTE`. -/
  | roundsRange
  /-- The rate would not be a positive whole number of bytes (R134); raised by `SPONGE`. -/
  | badCapacity
  /-- `outbits mod 8 ≠ 0` (R135); raised by the four sponge-class commands. -/
  | outlenNotByteMultiple
  /-- `outbits div 8 > OUT_MAX` (R135); raised by the four sponge-class commands. -/
  | outlenTooLong
  /-- An integer `≥ 2^2040` reaches a length encoding (R137); raised by `CSHAKE256` and `KMACXOF256`. -/
  | encodeDomain
  /-- `bytepad` with `w = 0` (R137); the function's contract, never raised by the engine. -/
  | badPadWidth
  /-- `len(X) > BUF_MAX` (R138); raised by `HWRBUF`. -/
  | bufferOverflow
  /-- A lane index above 24, or a buffer the host may not write (R138); raised by `HWRLANE`, `HRDLANE`, `HWRBUF`. -/
  | badPortIndex
  deriving DecidableEq, Repr

/-- The fields of `STATUS` that are not hard-wired to zero (R13). The 64-bit word is `Status.word`. -/
structure Status where
  /-- Bit 0: the last command issued completed without a fault. -/
  done : Bool
  /-- Bit 1: the engine has faulted; sticky. -/
  fault : Bool
  /-- Bits 15:8: the cause code of the fault. -/
  cause : BitVec 8
  deriving DecidableEq, Repr

/-- The five byte buffers (R16, R20): each is a content and a length, that is a byte sequence. -/
structure Memory where
  /-- `IN`. -/
  inp : Bytes
  /-- `KEY`. -/
  key : Bytes
  /-- `NAME`. -/
  name : Bytes
  /-- `CUST`. -/
  cust : Bytes
  /-- `OUT`. -/
  out : Bytes
  deriving DecidableEq, Repr

/-- The state: the engine's own (`lanes` to `fcmd`), the parameters of the engine (`config`, R5), and the two ends of
the host port: the port operations the host has still to perform, oldest first, and the values the reading operations
have returned, oldest first (R100, R159; log entry 1). The working state `WS` exists only inside a command (R17) and is
no field. -/
structure State where
  /-- The lane file `S[0] .. S[24]` (R10). -/
  lanes : Lanes
  /-- The five buffers (R16). -/
  mem : Memory
  /-- `STATUS` (R13). -/
  status : Status
  /-- `FCMD` (R14). -/
  fcmd : Word
  /-- `BUF_MAX` and `OUT_MAX` (R5). No operation writes it. -/
  config : Config
  /-- The host's port operations still to be performed, in order (R100, R159). MODEL's own. -/
  port : List PortOp
  /-- The values returned to the host so far, in order (R159). MODEL's own. -/
  returned : List PortValue
  deriving DecidableEq, Repr

/-- `STATUS = 0` (R19). -/
def Status.zero : Status := { done := false, fault := false, cause := 0 }

/-- All five buffers empty (R19). -/
def Memory.empty : Memory := { inp := [], key := [], name := [], cust := [], out := [] }

/-- The reset values of R19 for an engine with given parameters. -/
def State.resetWith (c : Config) : State :=
  { lanes := Vector.replicate 25 0, mem := .empty, status := .zero, fcmd := 0, config := c, port := [], returned := [] }

/-- The machine right after reset or power-on (R19, R101), nothing yet asked of it by the host. The parameters are the
ones R5 suggests for a model (log entry 3). -/
def State.reset : State := .resetWith .suggested

/-- The reasons a step could stop with a fault. There are none: after the spec's decisions "no behaviour of the engine
is left as any value or stuck" (`93_implementation_defined.md`), and every fault the spec names is the atomic entry of
R136, which is a next state. -/
inductive Fault where
  deriving DecidableEq, Repr

/-- The reasons a step could be refused. -/
inductive Refusal where
  /-- An instruction without a meaning; raised only by an arm of `exec` that has none. Safe. No arm raises it. -/
  | notModelled (mnemonic : String)
  deriving DecidableEq, Repr

end Sys2Proof.Machine
end

