-- ==== Sys2Proof/Machine/Flags.lean ====
section
/-! DEFINITION. The two flags and the cause field of `STATUS` (rules R13, R131), the only flags the engine has. -/

namespace Sys2Proof.Machine

/-- The numbering of the causes (R131). -/
def Cause.code : Cause → BitVec 8
  | .illegalCommand => 0x01
  | .roundsRange => 0x02
  | .badCapacity => 0x03
  | .outlenNotByteMultiple => 0x04
  | .outlenTooLong => 0x05
  | .encodeDomain => 0x06
  | .badPadWidth => 0x07
  | .bufferOverflow => 0x08
  | .badPortIndex => 0x09

/-- The 64 bits a read of `STATUS` gives: `CAUSE` in 15:8, `FAULT` in 1, `DONE` in 0, the reserved bits zero (R13). -/
def Status.word (st : Status) : Word :=
  (0 : BitVec 48) ++ st.cause ++ (0 : BitVec 6) ++ BitVec.ofBool st.fault ++ BitVec.ofBool st.done

/-- `STATUS.DONE <- 1`: the completion of a command (R13). -/
def Status.setDone (st : Status) : Status := { st with done := true }

/-- `STATUS.DONE <- 0`: the start of every `HISSUE` (R13, R105). -/
def Status.clearDone (st : Status) : Status := { st with done := false }

/-- `STATUS` after a fault entry: `FAULT <- 1`, `DONE <- 0`, `CAUSE <- cause` (R136). -/
def Status.faulted (c : Cause) : Status := { done := false, fault := true, cause := c.code }

end Sys2Proof.Machine
end

