-- ==== Sys2Proof/Machine/Ops.lean ====
section
/-! DEFINITION. The named operations over lanes, buffers and registers, taking a fault as one shared operation (rule
R136), and the frame every command runs in (R105, R110). There is no return from a fault (R141); its only exit is
`HRESET`, in `Machine/Port.lean`. -/

namespace Sys2Proof.Machine

/-- `zeros(n)`: `n` bytes of value `0x00` (R6). -/
def zeros (n : Nat) : Bytes := List.replicate n 0

/-- `slice(X, a, b)`: bytes `a` up to but not including `b` (R6). -/
def slice (X : Bytes) (a b : Nat) : Bytes := (X.drop a).take (b - a)

/-- The whole content of a buffer (R6: the space's name alone). -/
def Memory.get (m : Memory) : BufName → Bytes
  | .inp => m.inp
  | .key => m.key
  | .name => m.name
  | .cust => m.cust
  | .out => m.out

/-- `BufSet(space, X)`: replaces the whole content and length of a buffer (R6, R26). -/
def Memory.set (m : Memory) (b : BufName) (X : Bytes) : Memory :=
  match b with
  | .inp => { m with inp := X }
  | .key => { m with key := X }
  | .name => { m with name := X }
  | .cust => { m with cust := X }
  | .out => { m with out := X }

/-- `BufLen(space)` (R6). -/
def Memory.len (m : Memory) (b : BufName) : Nat := (m.get b).length

/-- `MemRead(space, off, n)` (`20_memory.md` section 5): requires `off + n ≤ BufLen(space)`. -/
def Memory.read (m : Memory) (b : BufName) (off n : Nat) : Option Bytes :=
  if off + n ≤ m.len b then some (slice (m.get b) off (off + n)) else none

/-- One byte of a buffer space, `none` beyond the buffer's length (R20: the index range is `0 .. BufLen − 1`). -/
def Memory.byte (m : Memory) (b : BufName) (i : Nat) : Option Byte := (m.get b)[i]?

/-- The greatest length of a buffer (R16); `none` is unbounded. -/
def bufLimit (c : Config) : BufName → Option Nat
  | .out => some c.outMax.val
  | _ => c.bufMax

/-- A length that a limit admits. -/
def withinLimit (n : Nat) : Option Nat → Bool
  | none => true
  | some m => n ≤ m

/-- Every buffer holds at most its greatest length (R16). -/
def Memory.wf (c : Config) (m : Memory) : Bool :=
  [BufName.inp, .key, .name, .cust, .out].all fun b => withinLimit (m.len b) (bufLimit c b)

/-- `S[i]`, for an index in range (R6). Out of range it is zero, which no operation relies on but the faulting
`HRDLANE`, whose value R138 gives as zero. -/
def State.lane (s : State) (i : Nat) : Lane := s.lanes.toArray.getD i 0

/-- `S[i] <- v`, for an index in range (R6). -/
def State.setLane (s : State) (i : Nat) (v : Lane) : State := { s with lanes := s.lanes.setIfInBounds i v }

/-- `BufSet` on the state. -/
def State.setBuf (s : State) (b : BufName) (X : Bytes) : State := { s with mem := s.mem.set b X }

/-- `STATUS.DONE <- 1`. -/
def State.setDone (s : State) : State := { s with status := s.status.setDone }

/-- `STATUS.DONE <- 0`. -/
def State.clearDone (s : State) : State := { s with status := s.status.clearDone }

/-- Hands a value to the host (R100, R159). -/
def State.giveHost (s : State) (v : PortValue) : State := { s with returned := s.returned ++ [v] }

/-- The fault entry, one atomic step (R136): `STATUS` records the fault, `FCMD` the offending word, the lanes are
zeroised and `OUT` is emptied. The input buffers keep their content. -/
def State.faultEntry (s : State) (c : Cause) (record : Word) : State :=
  { s with
    status := .faulted c
    fcmd := record
    lanes := Vector.replicate 25 0
    mem := s.mem.set .out [] }

/-- `raise Fault(cause)` (R136): the entry, when `STATUS.FAULT` is 0. A faulted engine records no second fault. -/
def State.raiseFault (s : State) (c : Cause) (record : Word) : State :=
  if s.status.fault then s else s.faultEntry c record

/-- Where every command runs. `body` is the command's checks, in their order, and then its writes. A fault raised in a
command records the command's word (R14, R105), which is `encode i` (log entry 7). A completed command sets `DONE`
(R13). A faulted engine performs no command (R110). -/
def runCommand (i : Instr) (body : State → Except Cause State) (s : State) : Host.Outcome State Fault Refusal :=
  if s.status.fault then .next s
  else
    match body s with
    | .ok s' => .next s'.setDone
    | .error c => .next (s.raiseFault c (encode i))

end Sys2Proof.Machine
end

