-- ==== Sys2Proof/Machine/Operands.lean ====
section
/-! DEFINITION. The operands of the commands and of the port operations: the checks on field values and buffer lengths
in the order of rule R40, each with the fault it raises (R133 to R138), and the `FCMD` value of a port fault (R138). -/

namespace Sys2Proof.Machine

/-- `rounds`, as a number of rounds from 0 to 24, else `ROUNDS_RANGE` (R61, R133). -/
def roundsOperand (rounds : BitVec 8) : Except Cause (Fin 25) :=
  if h : rounds.toNat ≤ 24 then .ok ⟨rounds.toNat, by omega⟩ else .error .roundsRange

/-- `cap`, as a legal capacity in bits, else `BAD_CAPACITY` (R65, R72, R134). -/
def capOperand (cap : BitVec 16) : Except Cause Capacity :=
  if h : cap.toNat % 8 = 0 ∧ cap.toNat ≤ 1592 then .ok ⟨cap.toNat, h⟩ else .error .badCapacity

/-- `outbits`, as an output length in bits that is a whole number of bytes and fits `OUT`, else
`OUTLEN_NOT_BYTE_MULTIPLE` or `OUTLEN_TOO_LONG`, in that order (R135). -/
def outbitsOperand (c : Config) (outbits : BitVec 32) : Except Cause Nat :=
  if outbits.toNat % 8 ≠ 0 then .error .outlenNotByteMultiple
  else if outbits.toNat / 8 > c.outMax.val then .error .outlenTooLong
  else .ok outbits.toNat

/-- A byte sequence whose bit length the length encodings admit, else `ENCODE_DOMAIN` (R88, R93, R137); the comparison
is exact (R80). -/
def encodable (X : Bytes) : Except Cause Unit :=
  if 8 * X.length ≥ encLimit then .error .encodeDomain else .ok ()

/-- The buffer numbers of R138. -/
def bufNumber : Option BufName → BitVec 8
  | some .inp => 0
  | some .key => 1
  | some .name => 2
  | some .cust => 3
  | some .out => 4
  | none => 0xFF

/-- The `FCMD` value of a port fault (R138): `0xFF`, the operation, the buffer number, and the lesser of `2^40 − 1` and
the offending value. -/
def portFaultWord (operation buffer : BitVec 8) (value : Nat) : Word :=
  (0xFF : BitVec 8) ++ operation ++ buffer ++ BitVec.ofNat 40 (min value (2 ^ 40 - 1))

end Sys2Proof.Machine
end

