-- ==== Sys2Proof/Machine/Encoding.lean ====
section
/-! DEFINITION. The encoding unit (rules R75 to R81): functions that the cSHAKE256 and KMACXOF256 units call and the
host cannot. A function whose rule names a failure answers the fault's cause. -/

namespace Sys2Proof.Machine

/-- The big-endian bytes of `x` without a leading zero byte; `fuel` bounds the number of bytes, and `x` is enough. -/
def beDigits : Nat → Nat → Bytes
  | 0, x => [BitVec.ofNat 8 x]
  | fuel + 1, x => if x < 256 then [BitVec.ofNat 8 x] else beDigits fuel (x / 256) ++ [BitVec.ofNat 8 x]

/-- `be(x)`: the minimal big-endian byte representation, `x"00"` for zero (R75). -/
def be (x : Nat) : Bytes := beDigits x x

/-- `left_encode(x)` (R76), refused exactly when `x ≥ 2^2040` (R80). -/
def leftEncode (x : Nat) : Except Cause Bytes :=
  if x < encLimit then .ok (BitVec.ofNat 8 (be x).length :: be x) else .error .encodeDomain

/-- `right_encode(x)` (R77), refused exactly when `x ≥ 2^2040` (R80). -/
def rightEncode (x : Nat) : Except Cause Bytes :=
  if x < encLimit then .ok (be x ++ [BitVec.ofNat 8 (be x).length]) else .error .encodeDomain

/-- `encode_string(X)` (R78). -/
def encodeString (X : Bytes) : Except Cause Bytes := do
  let p ← leftEncode (8 * X.length)
  pure (p ++ X)

/-- `bytepad(X, w)` (R79); `w = 0` raises `BAD_PAD_WIDTH`. Nothing is added on a whole multiple of `w`. -/
def bytepad (X : Bytes) (w : Nat) : Except Cause Bytes :=
  if w = 0 then .error .badPadWidth
  else do
    let p ← leftEncode w
    pure (p ++ X ++ zeros ((w - (p ++ X).length % w) % w))

end Sys2Proof.Machine
end

