-- ==== Sys2Proof/Machine/Permutation.lean ====
section
/-! DEFINITION. The permutation unit (rules R50 to R62): the four step mappings, the round, Keccak-p and Keccak-f, the
byte view of a state (R21), and the command `PERMUTE` (R61). Each step mapping is a function from an old state to a new
one (R156). -/

namespace Sys2Proof.Machine

/-- `rotl64(v, n)` (R50), its two terms as the rule gives them. -/
def rotl64 (v : Lane) (n : Nat) : Lane :=
  if n % 64 = 0 then v else (v <<< (n % 64)) + (v >>> (64 - n % 64))

/-- The lane at column `x` and row `y`: `A[x + 5y]` (R11). -/
def laneAt (A : Lanes) (x y : Fin 5) : Lane := A[x.val + 5 * y.val]

/-- The state whose lane at column `x` and row `y` is `f x y` (R11: `x = i mod 5`, `y = i div 5`). -/
def buildLanes (f : Fin 5 → Fin 5 → Lane) : Lanes :=
  Vector.ofFn fun i : Fin 25 => f ⟨i.val % 5, Nat.mod_lt _ (by decide)⟩ ⟨i.val / 5, by omega⟩

/-- `C[x]`: the exclusive or of the five lanes of column `x` (R51). -/
def columnParity (A : Lanes) (x : Fin 5) : Lane :=
  laneAt A x 0 ^^^ laneAt A x 1 ^^^ laneAt A x 2 ^^^ laneAt A x 3 ^^^ laneAt A x 4

/-- `theta` (R51). All five parities are taken from the input state. -/
def theta (A : Lanes) : Lanes :=
  let C : Vector Lane 5 := Vector.ofFn (columnParity A)
  let D : Vector Lane 5 := Vector.ofFn fun x : Fin 5 => C[(x + 4).val] ^^^ rotl64 C[(x + 1).val] 1
  buildLanes fun x y => laneAt A x y ^^^ D[x.val]

/-- The line `x` of the table of R52: the offsets `RHO[x][y]` for `y = 0 .. 4`. -/
def rhoLine (x : Fin 5) : Vector Nat 5 :=
  match x with
  | 0 => #v[0, 36, 3, 41, 18]
  | 1 => #v[1, 44, 10, 45, 2]
  | 2 => #v[62, 6, 43, 15, 61]
  | 3 => #v[28, 55, 25, 21, 56]
  | 4 => #v[27, 20, 39, 8, 14]

/-- The rotation offsets `RHO[x][y]` (R52). -/
def rhoOffsets : Vector (Vector Nat 5) 5 := Vector.ofFn rhoLine

/-- `rhopi`, closed form (R52). The lane at `(x, y)` goes to `(y, 2x + 3y)`; read from the destination `(x', y')`, its
source is `(x' + 3y', x')`, all mod 5. -/
def rhopi (A : Lanes) : Lanes :=
  buildLanes fun x' y' => rotl64 (laneAt A (x' + 3 * y') x') (rhoOffsets[(x' + 3 * y').val])[x'.val]

/-- `ROTC[0..23]`, by the formula R53 gives: `ROTC[k] = ((k+1)(k+2)/2) mod 64`. -/
def rotc : List Nat := (List.range 24).map fun k => (k + 1) * (k + 2) / 2 % 64

/-- `PILN[0..23]`: the lane written at each step of the walk (R53). -/
def piln : List (Fin 25) := [10, 7, 11, 17, 18, 3, 5, 16, 8, 21, 24, 4, 15, 23, 19, 13, 12, 2, 20, 14, 22, 9, 6, 1]

/-- One step of the walk of R53 on the copy and the held lane: write the held lane, rotated, and hold the old one. -/
def walkStep (held : Lanes × Lane) (k : Fin 25 × Nat) : Lanes × Lane :=
  (held.1.set k.1 (rotl64 held.2 k.2), held.1[k.1])

/-- `rhopi`, cycle-walk form (R53); the engine uses the closed form, as R54 asks. -/
def rhopiWalk (A : Lanes) : Lanes := ((piln.zip rotc).foldl walkStep (A, A[1])).1

/-- `chi` (R55). All reads are of the input state. -/
def chi (A : Lanes) : Lanes :=
  buildLanes fun x y => laneAt A x y ^^^ (~~~(laneAt A (x + 1) y) &&& laneAt A (x + 2) y)

/-- `RC[0..7]`, the first column of the table of R57. -/
def roundConstants0 : Vector Lane 8 := #v[
  0x0000000000000001, 0x0000000000008082, 0x800000000000808A, 0x8000000080008000,
  0x000000000000808B, 0x0000000080000001, 0x8000000080008081, 0x8000000000008009]

/-- `RC[8..15]`, the second column. -/
def roundConstants8 : Vector Lane 8 := #v[
  0x000000000000008A, 0x0000000000000088, 0x0000000080008009, 0x000000008000000A,
  0x000000008000808B, 0x800000000000008B, 0x8000000000008089, 0x8000000000008003]

/-- `RC[16..23]`, the third column. -/
def roundConstants16 : Vector Lane 8 := #v[
  0x8000000000008002, 0x8000000000000080, 0x000000000000800A, 0x800000008000000A,
  0x8000000080008081, 0x8000000000008080, 0x0000000080000001, 0x8000000080008008]

/-- `RC[0..23]` (R57), its three columns one after the other. -/
def roundConstants : Vector Lane 24 := roundConstants0 ++ roundConstants8 ++ roundConstants16

/-- `iota` (R56). -/
def iota (A : Lanes) (ir : Fin 24) : Lanes := A.set 0 (A[0] ^^^ roundConstants[ir])

/-- `rnd` (R58): θ, then ρ∘π, then χ, then ι. -/
def rnd (A : Lanes) (ir : Fin 24) : Lanes := iota (chi (rhopi (theta A))) ir

/-- `keccak_p` (R59): the rounds `24 − rounds .. 23` in order. The type of `rounds` is the domain of the rule. -/
def keccakP (A : Lanes) (rounds : Fin 25) : Lanes := ((List.finRange 24).drop (24 - rounds.val)).foldl rnd A

/-- `keccak_f` (R60). -/
def keccakF (A : Lanes) : Lanes := keccakP A 24

/-- Byte `k` of `le64(v)`: `v[8k+7 : 8k]` (R6). -/
def leByte (v : Lane) (k : Nat) : Byte := v.extractLsb' (8 * k) 8

/-- `from_le64` of the eight bytes from offset `8i` of a state (R6, R21). -/
def fromLe64 (SB : StateBytes) (i : Fin 25) : Lane :=
  SB[8 * i.val + 7] ++ SB[8 * i.val + 6] ++ SB[8 * i.val + 5] ++ SB[8 * i.val + 4] ++ SB[8 * i.val + 3] ++
    SB[8 * i.val + 2] ++ SB[8 * i.val + 1] ++ SB[8 * i.val]

/-- `state_bytes` (R21): byte `8i + k` is byte `k` of lane `i`, least significant first. -/
def stateBytes (A : Lanes) : StateBytes := Vector.ofFn fun j : Fin 200 => leByte A[j.val / 8] (j.val % 8)

/-- `state_lanes` (R21). -/
def stateLanes (SB : StateBytes) : Lanes := Vector.ofFn (fromLe64 SB)

/-- `keccak_f_bytes` (R60): Keccak-f through the byte view. -/
def keccakFBytes (SB : StateBytes) : StateBytes := stateBytes (keccakF (stateLanes SB))

/-- The check and the writes of `PERMUTE` (R61). -/
def permuteBody (rounds : BitVec 8) (s : State) : Except Cause State := do
  let n ← roundsOperand rounds
  pure { s with lanes := keccakP s.lanes n }

/-- `PERMUTE rounds` (R61). -/
def execPermute (rounds : BitVec 8) (s : State) : Host.Outcome State Fault Refusal :=
  runCommand (.permute rounds) (permuteBody rounds) s

end Sys2Proof.Machine
end

