-- ==== Sys2Proof/Machine/Sponge.lean ====
section
/-! DEFINITION. The sponge unit (rules R65 to R73) and the command `SPONGE` (R72). The working state `WS` (R17) is a
value of these functions and no part of the state. -/

namespace Sys2Proof.Machine

/-- `rate_bytes(c)` (R65): the block length in bytes, from 1 to 200. -/
def rateBytes (c : Capacity) : Nat := (1600 - c.val) / 8

/-- `pad(P, r)` (R66): the tail of pad10*1; zero bytes and a final `0x80`, or nothing on a whole number of blocks. -/
def pad (P : Bytes) (r : Nat) : Bytes :=
  if P.length % r = 0 then P else P ++ zeros (r - P.length % r - 1) ++ [0x80]

/-- Block `b` of `Q`, exclusive-ored into the first `r` bytes of the working state (R67). -/
def xorBlock (r : Nat) (Q : Bytes) (WS : StateBytes) (b : Nat) : StateBytes :=
  Vector.ofFn fun k : Fin 200 => if k.val < r then WS[k] ^^^ Q.getD (b * r + k.val) 0 else WS[k]

/-- The all-zero working state (R67). -/
def zeroState : StateBytes := Vector.replicate 200 0

/-- `absorb(Q, r)` (R67). -/
def absorb (Q : Bytes) (r : Nat) : StateBytes :=
  (List.range (Q.length / r)).foldl (fun WS b => keccakFBytes (xorBlock r Q WS b)) zeroState

/-- The bytes a state emits: `slice(WS, 0, r)` (R68). -/
def emission (WS : StateBytes) (r : Nat) : Bytes := slice WS.toList 0 r

/-- The loop of R68: permute and emit until `n` bytes are out. Each pass adds at least one byte when `r ≥ 1`, so `n`
passes are enough, and `fuel` counts them. -/
def squeezeLoop (r n : Nat) : Nat → StateBytes → Bytes → Bytes
  | 0, _, Z => Z
  | fuel + 1, WS, Z =>
    if Z.length < n then squeezeLoop r n fuel (keccakFBytes WS) (Z ++ emission (keccakFBytes WS) r) else Z

/-- `squeeze(WS, r, n)` (R68): no permutation before the first emission, and the first `n` bytes kept. -/
def squeeze (WS : StateBytes) (r n : Nat) : Bytes := slice (squeezeLoop r n n WS (emission WS r)) 0 n

/-- `sponge(P, d, c)` (R69). -/
def sponge (P : Bytes) (d : Nat) (c : Capacity) : Bytes :=
  squeeze (absorb (pad P (rateBytes c)) (rateBytes c)) (rateBytes c) (d / 8)

/-- The checks and the write of `SPONGE` (R72). -/
def spongeBody (cap : BitVec 16) (outbits : BitVec 32) (s : State) : Except Cause State := do
  let c ← capOperand cap
  let d ← outbitsOperand s.config outbits
  pure (s.setBuf .out (sponge s.mem.inp d c))

/-- `SPONGE cap, outbits` (R72). -/
def execSponge (cap : BitVec 16) (outbits : BitVec 32) (s : State) : Host.Outcome State Fault Refusal :=
  runCommand (.sponge cap outbits) (spongeBody cap outbits) s

end Sys2Proof.Machine
end

