-- ==== Sys2Proof/Machine/Shake.lean ====
section
/-! DEFINITION. The SHAKE256 and cSHAKE256 unit (rules R85 to R90) and its two commands. -/

namespace Sys2Proof.Machine

/-- The suffix byte of SHAKE256 (R85): `0x9F` when it is the last byte of a block, `0x1F` otherwise. -/
def shakeSuffix (X : Bytes) : Byte := if X.length % 136 = 135 then 0x9F else 0x1F

/-- `shake256(X, d)` (R85). -/
def shake256 (X : Bytes) (d : Nat) : Bytes := sponge (X ++ [shakeSuffix X]) d cap512

/-- What cSHAKE256 gives the sponge when a string is not empty (R87, R89): the suffix byte is `0x04` always. -/
def cshakeInput (X N C : Bytes) : Except Cause Bytes := do
  let n ← encodeString N
  let c ← encodeString C
  let p ← bytepad (n ++ c) rateBytes512
  pure (p ++ X ++ [0x04])

/-- `cshake256(X, d, N, C)` (R87). -/
def cshake256 (X : Bytes) (d : Nat) (N C : Bytes) : Except Cause Bytes :=
  if N.length = 0 ∧ C.length = 0 then .ok (shake256 X d)
  else do
    let T ← cshakeInput X N C
    pure (sponge T d cap512)

/-- The checks and the write of `SHAKE256` (R86). -/
def shake256Body (outbits : BitVec 32) (s : State) : Except Cause State := do
  let d ← outbitsOperand s.config outbits
  pure (s.setBuf .out (shake256 s.mem.inp d))

/-- `SHAKE256 outbits` (R86). -/
def execShake256 (outbits : BitVec 32) (s : State) : Host.Outcome State Fault Refusal :=
  runCommand (.shake256 outbits) (shake256Body outbits) s

/-- The checks and the write of `CSHAKE256` (R88). -/
def cshake256Body (outbits : BitVec 32) (s : State) : Except Cause State := do
  let d ← outbitsOperand s.config outbits
  encodable s.mem.name
  encodable s.mem.cust
  let Z ← cshake256 s.mem.inp d s.mem.name s.mem.cust
  pure (s.setBuf .out Z)

/-- `CSHAKE256 outbits` (R88). -/
def execCshake256 (outbits : BitVec 32) (s : State) : Host.Outcome State Fault Refusal :=
  runCommand (.cshake256 outbits) (cshake256Body outbits) s

end Sys2Proof.Machine
end

