-- ==== Sys2Proof/Machine/Kmac.lean ====
section
/-! DEFINITION. The KMACXOF256 unit (rules R92 to R95) and its command. -/

namespace Sys2Proof.Machine

/-- The fixed function name `"KMAC"`, `x"4B 4D 41 43"` (R92). -/
def kmacName : Bytes := [0x4B, 0x4D, 0x41, 0x43]

/-- `newX` of R92: `bytepad(encode_string(K), 136) || X || right_encode(0)`. -/
def kmacInput (K X : Bytes) : Except Cause Bytes := do
  let k ← encodeString K
  let p ← bytepad k rateBytes512
  let z ← rightEncode 0
  pure (p ++ X ++ z)

/-- `kmacxof256(K, X, d, C)` (R92). -/
def kmacxof256 (K X : Bytes) (d : Nat) (C : Bytes) : Except Cause Bytes := do
  let newX ← kmacInput K X
  cshake256 newX d kmacName C

/-- The checks and the write of `KMACXOF256` (R93). -/
def kmacxof256Body (outbits : BitVec 32) (s : State) : Except Cause State := do
  let d ← outbitsOperand s.config outbits
  encodable s.mem.key
  encodable s.mem.cust
  let Z ← kmacxof256 s.mem.key s.mem.inp d s.mem.cust
  pure (s.setBuf .out Z)

/-- `KMACXOF256 outbits` (R93). -/
def execKmacxof256 (outbits : BitVec 32) (s : State) : Host.Outcome State Fault Refusal :=
  runCommand (.kmacxof256 outbits) (kmacxof256Body outbits) s

end Sys2Proof.Machine
end

