-- ==== Sys2Proof/Machine/Dispatch.lean ====
section
/-! DEFINITION. The meaning of every command: one arm per constructor of `Instr`, one call each. -/

namespace Sys2Proof.Machine

def exec (i : Instr) (s : State) : Host.Outcome State Fault Refusal :=
  match i with
  | .permute rounds => Sys2Proof.Machine.execPermute rounds s
  | .sponge cap outbits => Sys2Proof.Machine.execSponge cap outbits s
  | .shake256 outbits => Sys2Proof.Machine.execShake256 outbits s
  | .cshake256 outbits => Sys2Proof.Machine.execCshake256 outbits s
  | .kmacxof256 outbits => Sys2Proof.Machine.execKmacxof256 outbits s

end Sys2Proof.Machine
end

