-- ==== Sys2Proof/Machine/Port.lean ====
section
/-! DEFINITION. The host port (rules R100 to R111): one definition per port operation. The engine changes state only
inside one of these (R100). -/

namespace Sys2Proof.Machine

/-- `HRESET` (R101): every piece of the engine's state takes its reset value, in every state. The parameters stay, and
so do the host's own list of operations and the values it has received (log entry 16). -/
def portHreset (s : State) : State :=
  { State.resetWith s.config with port := s.port, returned := s.returned }

/-- The operation codes of R138 for a port fault. -/
def opHwrbuf : BitVec 8 := 0x01
def opHwrlane : BitVec 8 := 0x02
def opHrdlane : BitVec 8 := 0x03

/-- `HWRBUF b, X` (R102, R110, R138). A buffer the host may not write faults before its length is looked at (log entry
6). -/
def portHwrbuf (b : Option BufName) (X : Bytes) (s : State) : State :=
  if s.status.fault then s
  else
    match b with
    | none => s.raiseFault .badPortIndex (portFaultWord opHwrbuf (bufNumber none) X.length)
    | some .out => s.raiseFault .badPortIndex (portFaultWord opHwrbuf (bufNumber (some .out)) X.length)
    | some b =>
      if withinLimit X.length (bufLimit s.config b) then s.setBuf b X
      else s.raiseFault .bufferOverflow (portFaultWord opHwrbuf (bufNumber (some b)) X.length)

/-- `HWRLANE i, v` (R103, R110, R138). -/
def portHwrlane (i : Nat) (v : Lane) (s : State) : State :=
  if s.status.fault then s
  else if i > 24 then s.raiseFault .badPortIndex (portFaultWord opHwrlane 0 i)
  else s.setLane i v

/-- `HRDLANE i` (R104, R110, R138). A faulted engine, and the faulting read itself, return zero. -/
def portHrdlane (i : Nat) (s : State) : State :=
  if s.status.fault then s.giveHost (.u64 0)
  else if i > 24 then (s.raiseFault .badPortIndex (portFaultWord opHrdlane 0 i)).giveHost (.u64 0)
  else s.giveHost (.u64 (s.lane i))

/-- `HRDOUT` (R106, R110). -/
def portHrdout (s : State) : State := s.giveHost (.bytes (if s.status.fault then [] else s.mem.out))

/-- `HRDSTATUS` (R107). -/
def portHrdstatus (s : State) : State := s.giveHost (.u64 s.status.word)

/-- `HRDFCMD` (R108). -/
def portHrdfcmd (s : State) : State := s.giveHost (.u64 s.fcmd)

/-- `HRDLEN b` (R109). -/
def portHrdlen (b : BufName) (s : State) : State := s.giveHost (.natural (s.mem.len b))

/-- `HISSUE w` (R105, R110): clear `DONE`, decode, and perform the command, or fault on a word that is none (R132). -/
def portHissue (w : Word) (s : State) : Host.Outcome State Fault Refusal :=
  if s.status.fault then .next s
  else
    match decode w with
    | .ok i => exec i s.clearDone
    | .error _ => .next (s.clearDone.raiseFault .illegalCommand w)

/-- One port operation, atomic (R26, R100). -/
def performPort (op : PortOp) (s : State) : Host.Outcome State Fault Refusal :=
  match op with
  | .hreset => .next (portHreset s)
  | .hwrbuf b X => .next (portHwrbuf b X s)
  | .hwrlane i v => .next (portHwrlane i v s)
  | .hrdlane i => .next (portHrdlane i s)
  | .hissue w => portHissue w s
  | .hrdout => .next (portHrdout s)
  | .hrdstatus => .next (portHrdstatus s)
  | .hrdfcmd => .next (portHrdfcmd s)
  | .hrdlen b => .next (portHrdlen b s)

/-- The host's next operation, taken off its list (R28: one total order, each complete before the next begins). With
none left the engine does nothing: it never acts on its own (R100; log entry 2). -/
def performNext (s : State) : Host.Outcome State Fault Refusal :=
  match s.port with
  | [] => .next s
  | op :: rest => performPort op { s with port := rest }

end Sys2Proof.Machine
end

