-- ==== Sys2Proof/Machine/Step.lean ====
section
/-! DEFINITION. One step of the machine: one port operation (rules R9, R100, R159). -/

namespace Sys2Proof.Machine

/-- One step (R9, R28, R159). -/
def step (s : State) : Host.Outcome State Fault Refusal := performNext s

/-- The engine fetches nothing from memory: a command word is the operand of `HISSUE` (R12, R30). The state whose next
port operation issues the word, before those the host already had in mind (log entry 4). -/
def State.withFetchWord (s : State) (nbits w : Nat) : State :=
  { s with port := .hissue (tableWord nbits w) :: s.port }

end Sys2Proof.Machine
end

