-- ==== Sys2Proof/Machine/HostLayer.lean ====
section
/-! DEFINITION. What the host does with the engine: the assembler syntax (rules R38, R39) and the host-layer
constructions (R115 to R123). Nothing here is engine hardware (R3, R115) and no other definition uses it; it is the
host's program, for a model of a system that contains the engine. -/

namespace Sys2Proof.Machine

/-! ### Assembler (R38, R39) -/

/-- A line of a listing (R38), its command operands still plain numbers, and the pseudo-instructions (R39). -/
inductive AsmLine where
  /-- A line that is a port operation. -/
  | port (op : PortOp)
  | permute (rounds : Nat)
  | sponge (cap outbits : Nat)
  | shake256 (outbits : Nat)
  | cshake256 (outbits : Nat)
  | kmacxof256 (outbits : Nat)
  | keccakf
  | hash (m : Bytes)
  | mac (m pw : Bytes)
  deriving DecidableEq, Repr

/-- The customisation strings of the host layer in ASCII (R94 (f), R116 to R118). -/
def custD : Bytes := [0x44]
def custT : Bytes := [0x54]
def custS : Bytes := [0x53]
def custSKE : Bytes := [0x53, 0x4B, 0x45]
def custSKA : Bytes := [0x53, 0x4B, 0x41]

/-- `HISSUE` of a command's word (R38). -/
def issue (i : Instr) : PortOp := .hissue (encode i)

/-- The five operations of a `HASH` or `MAC` line (R39). -/
def macOps (key m cust : Bytes) : List PortOp :=
  [.hwrbuf (some .key) key, .hwrbuf (some .inp) m, .hwrbuf (some .cust) cust, issue (.kmacxof256 512), .hrdout]

/-- The port operations of a line; `none` when an operand does not fit its field (R38). -/
def AsmLine.assemble : AsmLine → Option (List PortOp)
  | .port op => some [op]
  | .permute rounds => if rounds ≤ 255 then some [issue (.permute rounds)] else none
  | .sponge cap outbits =>
    if cap ≤ 65535 ∧ outbits ≤ 4294967295 then some [issue (.sponge cap outbits)] else none
  | .shake256 outbits => if outbits ≤ 4294967295 then some [issue (.shake256 outbits)] else none
  | .cshake256 outbits => if outbits ≤ 4294967295 then some [issue (.cshake256 outbits)] else none
  | .kmacxof256 outbits => if outbits ≤ 4294967295 then some [issue (.kmacxof256 outbits)] else none
  | .keccakf => some [issue (.permute 24)]
  | .hash m => some (macOps [] m custD)
  | .mac m pw => some (macOps pw m custT)

/-! ### Hash, mac, encrypt, decrypt (R115 to R121) -/

/-- The failures of the host layer (R119, R121): three kinds, never conflated. -/
inductive HostError where
  /-- The engine would fault on the call (R130). That the call then answers the cause is the model's choice: R115's five
  operations read no `STATUS` and end in `HRDOUT`, which a faulted engine answers with the empty sequence (log entry
  18). -/
  | engine (c : Cause)
  /-- The output length does not fit the 32-bit `outbits` field (R33). -/
  | outbitsTooWide
  /-- A cryptogram of fewer than 128 bytes: a contract violation (R119). -/
  | cryptogramTooShort
  /-- Tag mismatch on decryption: expected and recoverable (R121). -/
  | authenticationFailed
  deriving DecidableEq, Repr

/-- The port operations of one `KMACXOF256(K, X, d, C)` of the host layer (R115). -/
def kmacCall (K X : Bytes) (d : BitVec 32) (C : Bytes) : List PortOp :=
  [.hwrbuf (some .key) K, .hwrbuf (some .inp) X, .hwrbuf (some .cust) C, issue (.kmacxof256 d), .hrdout]

/-- The value that call returns from a live engine whose buffers can hold the operands and the result (R93, R115). DESIGN
CHOICE (log entry 18): the engine is taken to be live, and where it faults in the call the answer is the cause, not the
empty sequence that `HRDOUT` then returns (R110). DESIGN CHOICE (log entry 17): a length above 32 bits is refused. -/
def hostKmac (K X : Bytes) (d : Nat) (C : Bytes) : Except HostError Bytes :=
  if d < 2 ^ 32 then
    match kmacxof256 K X d C with
    | .ok Z => .ok Z
    | .error c => .error (.engine c)
  else .error .outbitsTooWide

/-- `hash(message)` (R116). -/
def hostHash (message : Bytes) : Except HostError Bytes := hostKmac [] message 512 custD

/-- `mac(message, passphrase)` (R117). -/
def hostMac (message passphrase : Bytes) : Except HostError Bytes := hostKmac passphrase message 512 custT

/-- Exclusive or byte by byte (R118). -/
def xorBytes (X Y : Bytes) : Bytes := List.zipWith (· ^^^ ·) X Y

/-- `ke` and `ka`: the two halves of `keka` (R118). -/
def deriveKeys (rand passphrase : Bytes) : Except HostError (Bytes × Bytes) := do
  let keka ← hostKmac (rand ++ passphrase) [] 1024 custS
  pure (slice keka 0 64, slice keka 64 128)

/-- The keystream exclusive-ored with a message (R118, R119). -/
def applyKeystream (ke X : Bytes) : Except HostError Bytes := do
  let k ← hostKmac ke [] (8 * X.length) custSKE
  pure (xorBytes k X)

/-- `encrypt(message, passphrase)` (R118), the 64 random bytes an argument: the engine has no random source (R145), and
the host's is not modelled (log entry 13). The tag is over the plaintext. -/
def encrypt (rand : Vector Byte 64) (message passphrase : Bytes) : Except HostError Bytes := do
  let keys ← deriveKeys rand.toList passphrase
  let c ← applyKeystream keys.1 message
  let t ← hostKmac keys.2 message 512 custSKA
  pure (rand.toList ++ c ++ t)

/-- `decrypt(cryptogram, passphrase)` (R119, R121): no plaintext is returned unless the tag matches. -/
def decrypt (cryptogram passphrase : Bytes) : Except HostError Bytes :=
  if cryptogram.length < 128 then .error .cryptogramTooShort
  else do
    let len := cryptogram.length
    let keys ← deriveKeys (slice cryptogram 0 64) passphrase
    let m ← applyKeystream keys.1 (slice cryptogram 64 (len - 64))
    let t ← hostKmac keys.2 m 512 custSKA
    if t = slice cryptogram (len - 64) len then pure m else .error .authenticationFailed

/-! ### Hex conversion (R123) -/

/-- The uppercase digit of a number below 16 (R123). -/
def hexDigit (n : Nat) : Char := if n < 10 then Char.ofNat (48 + n) else Char.ofNat (55 + n)

/-- Bytes to hex: two uppercase digits a byte, no delimiter (R123). -/
def toHex : Bytes → List Char
  | [] => []
  | b :: X => hexDigit (b.toNat / 16) :: hexDigit (b.toNat % 16) :: toHex X

/-- The value of an uppercase hex digit. -/
def hexValue (c : Char) : Option Nat :=
  if 48 ≤ c.toNat ∧ c.toNat ≤ 57 then some (c.toNat - 48)
  else if 65 ≤ c.toNat ∧ c.toNat ≤ 70 then some (c.toNat - 55)
  else none

/-- Space, tab, line feed and carriage return: the white space a parse tolerates (R123; log entry 14). -/
def isBlank (c : Char) : Bool := c.toNat = 32 || c.toNat = 9 || c.toNat = 10 || c.toNat = 13

/-- Digits to bytes; an odd digit or a character that is no uppercase digit is malformed (log entry 14). -/
def hexPairs : List Char → Option Bytes
  | [] => some []
  | [_] => none
  | c :: d :: rest =>
    match hexValue c, hexValue d, hexPairs rest with
    | some h, some l, some X => some (BitVec.ofNat 8 (16 * h + l) :: X)
    | _, _, _ => none

/-- Hex to bytes, white space ignored (R123). -/
def fromHex (s : List Char) : Option Bytes := hexPairs (s.filter fun c => !isBlank c)

end Sys2Proof.Machine
end

