-- ==== Sys2Proof/Safety.lean ====
section
/-! DEFINITION. What the claims are stated in: the invariant of the engine, what a recorded fault means, what a command
reads, and the order in which an issue looks for a fault (rules R13, R16, R40, R130 to R139). -/

namespace Sys2Proof.Machine

/-- The invariant of a reachable state. -/
structure State.Inv (s : State) : Prop where
  /-- "`DONE` and `FAULT` are never both 1" (R13). -/
  flagsExclusive : ¬(s.status.done = true ∧ s.status.fault = true)
  /-- `CAUSE` and `FCMD` are zero when `FAULT = 0` (R13, R14). -/
  noFaultNoRecord : s.status.fault = false → s.status.cause = 0 ∧ s.fcmd = 0
  /-- A faulted engine reports one of the causes that are ever raised (R131). -/
  causeNamed : s.status.fault = true → ∃ c : Cause, c ≠ .badPadWidth ∧ s.status.cause = c.code
  /-- A faulted engine's lanes are zero and its `OUT` is empty (R110, R136). -/
  faultErases : s.status.fault = true → (∀ i, s.lane i = 0) ∧ s.mem.out = []
  /-- No buffer is longer than its greatest length (R16). -/
  buffersFit : s.mem.wf s.config = true

/-- The field `outbits` of a command that has one (R33). -/
def outbitsOf : Instr → Option (BitVec 32)
  | .permute _ => none
  | .sponge _ outbits => some outbits
  | .shake256 outbits => some outbits
  | .cshake256 outbits => some outbits
  | .kmacxof256 outbits => some outbits

/-- The buffers a command reads (R16, R32). -/
def buffersRead : Instr → List BufName
  | .permute _ => []
  | .sponge _ _ => [.inp]
  | .shake256 _ => [.inp]
  | .cshake256 _ => [.inp, .name, .cust]
  | .kmacxof256 _ => [.key, .inp, .cust]

/-- The buffers whose lengths a command encodes (R88, R93). -/
def buffersEncoded : Instr → List BufName
  | .cshake256 _ => [.name, .cust]
  | .kmacxof256 _ => [.key, .cust]
  | _ => []

/-- A sponge-class command (R8). -/
def spongeClass (i : Instr) : Prop := (outbitsOf i).isSome = true

/-- A command's buffer lengths are all below the bound of the length encodings (R80). -/
def lengthsEncodable (i : Instr) (m : Memory) : Prop := ∀ b ∈ buffersEncoded i, 8 * m.len b < encLimit

/-- The output length of a command is a whole number of bytes that fits `OUT` (R135); true of `PERMUTE`. -/
def outputFits (i : Instr) (c : Config) : Prop :=
  ∀ o, outbitsOf i = some o → o.toNat % 8 = 0 ∧ o.toNat / 8 ≤ c.outMax.val

/-- The first fault of a command in the order of R40 and R139, written from the table of R131 as one list of tests. -/
noncomputable def firstFault (i : Instr) (s : State) : Option Cause :=
  open Classical in
  if ∃ r, i = .permute r ∧ 24 < r.toNat then some .roundsRange
  else if ∃ c o, i = .sponge c o ∧ ¬(c.toNat % 8 = 0 ∧ c.toNat ≤ 1592) then some .badCapacity
  else if ∃ o, outbitsOf i = some o ∧ o.toNat % 8 ≠ 0 then some .outlenNotByteMultiple
  else if ∃ o, outbitsOf i = some o ∧ s.config.outMax.val < o.toNat / 8 then some .outlenTooLong
  else if ¬lengthsEncodable i s.mem then some .encodeDomain
  else none

/-- The record of a faulted engine is true: `CAUSE` and `FCMD` together name an operation that has that fault (R132 to
R138). The buffers and the parameters are those of the moment of the fault, since nothing changes them while the engine
is faulted (R110). That cause `0x08` names an input buffer and never `OUT` or a buffer that does not exist is the model's
choice (log entry 6). -/
def State.faultExplained (s : State) : Prop :=
  s.status.fault = true →
    (s.status.cause = 0x01 ∧ ∃ e, decode s.fcmd = .error e) ∨
    (s.status.cause = 0x02 ∧ ∃ r, decode s.fcmd = .ok (.permute r) ∧ 24 < r.toNat) ∨
    (s.status.cause = 0x03 ∧ ∃ c o, decode s.fcmd = .ok (.sponge c o) ∧ ¬(c.toNat % 8 = 0 ∧ c.toNat ≤ 1592)) ∨
    (s.status.cause = 0x04 ∧ ∃ i o, decode s.fcmd = .ok i ∧ outbitsOf i = some o ∧ o.toNat % 8 ≠ 0) ∨
    (s.status.cause = 0x05 ∧ ∃ i o, decode s.fcmd = .ok i ∧ outbitsOf i = some o ∧ s.config.outMax.val < o.toNat / 8) ∨
    (s.status.cause = 0x06 ∧ ∃ i, decode s.fcmd = .ok i ∧ ¬lengthsEncodable i s.mem) ∨
    (s.status.cause = 0x08 ∧ ∃ b m n, s.config.bufMax = some m ∧ m < n ∧ b ≠ .out ∧
      s.fcmd = portFaultWord 0x01 (bufNumber (some b)) n) ∨
    (s.status.cause = 0x09 ∧
      ((∃ i, 24 < i ∧ (s.fcmd = portFaultWord 0x02 0 i ∨ s.fcmd = portFaultWord 0x03 0 i)) ∨
        ∃ b n, (b = none ∨ b = some .out) ∧ s.fcmd = portFaultWord 0x01 (bufNumber b) n))

end Sys2Proof.Machine
end

