-- ==== Sys2Proof/Certificates/Slice0/Obligations.lean ====
section
/-! DEFINITION. The statements about the model for the provers, unit by unit in the order of the spec's files. -/

open Sys2Proof Sys2Proof.Machine

/-! ### Vocabulary -/

namespace Sys2Proof.Claims

/-- A reader of `encode_string` (R81): the first byte `n`, then `n` bytes as a big-endian natural `b`, then `b / 8` bytes
as the string; the rest is what follows. The engine has no parser. -/
def parseString : Bytes → Option (Bytes × Bytes)
  | [] => none
  | n :: rest =>
    let b := (rest.take n.toNat).foldl (fun a d => 256 * a + d.toNat) 0
    some ((rest.drop n.toNat).take (b / 8), (rest.drop n.toNat).drop (b / 8))

/-- One step of the 8-bit shift register of R57, polynomial `x^8 + x^6 + x^5 + x^4 + 1`, its bits listed from the output
end. -/
def lfsrStep : List Bool → List Bool
  | [r0, r1, r2, r3, r4, r5, r6, r7] => [r7, r0, r1, r2, xor r3 r7, xor r4 r7, xor r5 r7, r6]
  | r => r

/-- `rc(t)` of R57: the output bit after `t` steps from `10000000`. -/
def rc (t : Nat) : Bool := (lfsrStep^[t] [true, false, false, false, false, false, false, false]).headD false

/-- A fault entry as R136 lists it, field by field. -/
def IsFaultEntry (s t : State) (c : Cause) (record : Word) : Prop :=
  t.status = { done := false, fault := true, cause := c.code } ∧ t.fcmd = record ∧ (∀ i, t.lane i = 0) ∧
  t.mem.out = [] ∧ (∀ b, b ≠ BufName.out → t.mem.get b = s.mem.get b) ∧
  t.config = s.config ∧ t.port = s.port ∧ t.returned = s.returned

/-- Two states that differ at most in the content of the four input buffers, the lengths being the same (R155). -/
def SameButInputContents (s t : State) : Prop :=
  s.lanes = t.lanes ∧ s.status = t.status ∧ s.fcmd = t.fcmd ∧ s.config = t.config ∧ s.port = t.port ∧
  s.returned = t.returned ∧ s.mem.out = t.mem.out ∧ ∀ b, s.mem.len b = t.mem.len b

end Sys2Proof.Claims

open Sys2Proof.Claims

/-! ### Command words (`30_encoding.md`) -/

/-- The example words of R38 decode to their commands, and the all-zero and all-ones words of R36 to none. -/
def Obligations.ExampleWordsDecode : Prop :=
  decode 0x0118000000000000 = .ok (.permute 24) ∧ decode 0x0200020000000100 = .ok (.sponge 512 256) ∧
  decode 0x0300000000000100 = .ok (.shake256 256) ∧ decode 0x0400000000000200 = .ok (.cshake256 512) ∧
  decode 0x0500000000000400 = .ok (.kmacxof256 1024) ∧
  decode 0x0000000000000000 = .error .unassignedOp ∧ decode 0xFFFFFFFFFFFFFFFF = .error .unassignedOp ∧
  decode 0x0118000000000001 = .error .unusedFieldNotZero

/-- Decoding an encoded command gives it back, for every command and every value of every operand field (R33, R35). -/
def Obligations.DecodeOfEncodeIsCommand : Prop := ∀ i : Instr, decode (encode i) = .ok i

/-- Every legal word is the encoding of the command it decodes to, so no two words decode to one command (R33, R35). -/
def Obligations.EncodeOfDecodeIsWord : Prop := ∀ (w : Word) (i : Instr), decode w = .ok i → encode i = w

/-- R35: the table of match and mask values; a word selects a row exactly when the decoder answers a command of that
row; at most one row matches; the fields a command does not use are zero. -/
def Obligations.RowSelectionIsMaskAndMatch : Prop :=
  opRows = [⟨"PERMUTE", 0x0100000000000000, 0xFF00FFFFFFFFFFFF⟩, ⟨"SPONGE", 0x0200000000000000, 0xFFFF000000000000⟩,
    ⟨"SHAKE256", 0x0300000000000000, 0xFFFFFFFF00000000⟩, ⟨"CSHAKE256", 0x0400000000000000, 0xFFFFFFFF00000000⟩,
    ⟨"KMACXOF256", 0x0500000000000000, 0xFFFFFFFF00000000⟩] ∧
  (∀ (w : Word), ∀ r ∈ opRows, w &&& r.mask = r.matchVal ↔ ∃ i, decode w = .ok i ∧ i.row = r) ∧
  (∀ (w : Word), ∀ r ∈ opRows, ∀ r' ∈ opRows, w &&& r.mask = r.matchVal → w &&& r'.mask = r'.matchVal → r = r') ∧
  (∀ (w : Word) (i : Instr), decode w = .ok i →
    (i.row = rowPermute → capField w = 0 ∧ outbitsField w = 0) ∧ (i.row ≠ rowPermute → roundsField w = 0) ∧
    (i.row ≠ rowPermute → i.row ≠ rowSponge → capField w = 0))

/-- R132: issuing a word with an unassigned `op`, or with a non-zero bit in a field its command does not use, raises
`ILLEGAL_COMMAND` and records the word; issuing any other word does not. -/
def Obligations.IllegalWordFaults : Prop :=
  ∀ (s : State) (w : Word), s.status.fault = false → s.status.cause = 0 →
    ∃ t, portHissue w s = .next t ∧
      (if opField w = 1 ∧ capField w = 0 ∧ outbitsField w = 0 ∨ opField w = 2 ∧ roundsField w = 0 ∨
          (opField w = 3 ∨ opField w = 4 ∨ opField w = 5) ∧ roundsField w = 0 ∧ capField w = 0
        then t.status.cause ≠ 0x01
        else IsFaultEntry s t .illegalCommand w)

/-- R38: the assembler gives the word of each command line, and refuses an operand that does not fit its field; it does
not refuse `PERMUTE 25`. -/
def Obligations.AssemblerFitsFields : Prop :=
  (∀ n, (AsmLine.permute n).assemble =
    if n ≤ 255 then some [.hissue (BitVec.ofNat 64 (0x0100000000000000 + n * 2 ^ 48))] else none) ∧
  (∀ c n, (AsmLine.sponge c n).assemble =
    if c ≤ 65535 ∧ n ≤ 4294967295 then some [.hissue (BitVec.ofNat 64 (0x0200000000000000 + c * 2 ^ 32 + n))]
    else none) ∧
  (∀ n, (AsmLine.shake256 n).assemble =
    if n ≤ 4294967295 then some [.hissue (BitVec.ofNat 64 (0x0300000000000000 + n))] else none) ∧
  (∀ n, (AsmLine.cshake256 n).assemble =
    if n ≤ 4294967295 then some [.hissue (BitVec.ofNat 64 (0x0400000000000000 + n))] else none) ∧
  (∀ n, (AsmLine.kmacxof256 n).assemble =
    if n ≤ 4294967295 then some [.hissue (BitVec.ofNat 64 (0x0500000000000000 + n))] else none)

/-! ### Permutation unit (`40_permutation.md`) -/

/-- R50: `rotl64` by its arithmetic definition, by its bits, its examples, and the amounts the engine uses. -/
def Obligations.RotateLeftMovesBits : Prop :=
  (∀ (v : Lane) (n : Nat), n % 64 = 0 → rotl64 v n = v) ∧
  (∀ (v : Lane) (n : Nat), n % 64 ≠ 0 →
    (rotl64 v n).toNat = (v.toNat * 2 ^ (n % 64)) % 2 ^ 64 + v.toNat / 2 ^ (64 - n % 64)) ∧
  (∀ (v : Lane) (n z : Nat), z < 64 → (rotl64 v n).getLsbD ((z + n % 64) % 64) = v.getLsbD z) ∧
  (∀ x y : Fin 5, (rhoOffsets[x])[y] ≤ 62) ∧
  rotl64 0x8000000000000001 1 = 0x0000000000000003 ∧ ∀ v : Lane, rotl64 v 0 = v ∧ rotl64 v 64 = v

/-- R51: `theta` adds to every lane the parity of the column to its left and the rotated parity of the column to its
right, all taken from the input state; a state whose columns have even parity is left unchanged. -/
def Obligations.ThetaAddsColumnParities : Prop :=
  ∀ A : Lanes,
    let C : Fin 5 → Lane := fun i => A[i.val] ^^^ A[i.val + 5] ^^^ A[i.val + 10] ^^^ A[i.val + 15] ^^^ A[i.val + 20]
    (∀ i j : Fin 5, (theta A)[i.val + 5 * j.val] = A[i.val + 5 * j.val] ^^^ (C (i + 4) ^^^ rotl64 (C (i + 1)) 1)) ∧
    ((∀ i, C i = 0) → theta A = A)

/-- R52: the lane at `(x, y)` is rotated by `RHO[x][y]` and moved to `(y, 2x + 3y)`; the map fixes `(0, 0)` and moves the
other 24 positions in one cycle of length 24, along which the offsets are `(t+1)(t+2)/2 mod 64`. -/
def Obligations.RhoPiRotatesAndMoves : Prop :=
  (∀ (A : Lanes) (x y : Fin 5), laneAt (rhopi A) y (2 * x + 3 * y) = rotl64 (laneAt A x y) (rhoOffsets[x])[y]) ∧
  (let next : Fin 5 × Fin 5 → Fin 5 × Fin 5 := fun p => (p.2, 2 * p.1 + 3 * p.2)
   next (0, 0) = (0, 0) ∧ (∀ p, p ≠ (0, 0) → ∃ t : Fin 24, next^[t.val] (1, 0) = p) ∧ next^[24] (1, 0) = (1, 0) ∧
   (rhoOffsets[0])[0] = 0 ∧
   ∀ t : Fin 24, (rhoOffsets[(next^[t.val] (1, 0)).1])[(next^[t.val] (1, 0)).2] =
     ((t.val + 1) * (t.val + 2) / 2) % 64)

/-- R54: the cycle walk of R53 and the closed form of R52 give the same result for every state, the walk's step `k`
writing to lane `PILN[k]` the old content of lane `PILN[k−1]` (lane 1 when `k = 0`) rotated by `ROTC[k]`. -/
def Obligations.RhoPiWalkAgreesWithClosedForm : Prop :=
  ∀ A : Lanes, rhopiWalk A = rhopi A ∧
    ∀ k : Fin 24, (rhopi A)[piln.getD k.val 0] =
      rotl64 A[if k.val = 0 then (1 : Fin 25) else piln.getD (k.val - 1) 0] (rotc.getD k.val 0)

/-- R55: `chi`, lane by lane along each row, all reads from the input state; zero and all-ones states are fixed. -/
def Obligations.ChiCombinesRowNeighbours : Prop :=
  (∀ (A : Lanes) (i j : Fin 5), laneAt (chi A) i j = laneAt A i j ^^^ (~~~(laneAt A (i + 1) j) &&& laneAt A (i + 2) j)) ∧
  chi (Vector.replicate 25 0) = Vector.replicate 25 0 ∧
  chi (Vector.replicate 25 0xFFFFFFFFFFFFFFFF) = Vector.replicate 25 0xFFFFFFFFFFFFFFFF

/-- R56, R57: `iota` exclusive-ors the round constant into lane 0 and changes no other lane; bit `2^j − 1` of `RC[ir]` is
the shift register's `rc(j + 7·ir)`, and no other bit of a constant is set. -/
def Obligations.IotaAddsRoundConstants : Prop :=
  (∀ (A : Lanes) (ir : Fin 24), (iota A ir)[0] = A[0] ^^^ roundConstants[ir] ∧
    ∀ i : Fin 25, i ≠ 0 → (iota A ir)[i] = A[i]) ∧
  ∀ ir : Fin 24, (∀ j : Fin 7, roundConstants[ir].getLsbD (2 ^ j.val - 1) = rc (j.val + 7 * ir.val)) ∧
    ∀ z : Fin 64, (∀ j : Fin 7, z.val ≠ 2 ^ j.val - 1) → roundConstants[ir].getLsbD z.val = false

/-- R59: `keccak_p` runs the rounds `24 − rounds .. 23` in that order: none for 0, and for `rounds + 1` the round of
index `23 − rounds` first and then the `rounds` last ones. So one round uses `RC[23]`. -/
def Obligations.KeccakPUsesLastRounds : Prop :=
  (∀ A : Lanes, keccakP A 0 = A ∧ keccakP A 1 = rnd A 23) ∧
  (∀ (A : Lanes) (rounds : Fin 24), keccakP A rounds.succ = keccakP (rnd A rounds.rev) rounds.castSucc)

/-- R60: `keccak_f` is the 24 rounds `0 .. 23` in order, used on bytes through the byte view, and is a bijection on the
states. -/
def Obligations.KeccakFIsBijection : Prop :=
  (∀ A : Lanes, keccakF A = keccakP A 24 ∧ keccakF A = (List.finRange 24).foldl rnd A) ∧
  (∀ SB : StateBytes, keccakFBytes SB = stateBytes (keccakF (stateLanes SB))) ∧ Function.Bijective keccakF

/-- R21: byte `8i + k` of the byte view is bits `8k+7 : 8k` of lane `i`, and the two views are inverse. -/
def Obligations.ByteViewIsLittleEndianBijection : Prop :=
  (∀ (A : Lanes) (i : Fin 25) (k : Fin 8),
    (stateBytes A)[8 * i.val + k.val] = A[i].extractLsb' (8 * k.val) 8) ∧
  (∀ A : Lanes, stateLanes (stateBytes A) = A) ∧ ∀ SB : StateBytes, stateBytes (stateLanes SB) = SB

/-! ### Sponge unit (`41_sponge.md`) -/

/-- What `pad` appends (R66), and that the length is the least multiple of the block length not below the input's. -/
def Obligations.PadFillsLastBlock : Prop :=
  ∀ (P : Bytes) (r : Nat), 1 ≤ r →
    (P.length % r = 0 → pad P r = P) ∧
    (P.length % r ≠ 0 → pad P r = P ++ List.replicate (r - P.length % r - 1) 0x00 ++ [0x80]) ∧
    (pad P r).length % r = 0 ∧ P.length ≤ (pad P r).length ∧ (pad P r).length < P.length + r

/-- R67: the running state starts at zero, and absorbing one more block exclusive-ors it into the first `r` bytes and
permutes. -/
def Obligations.AbsorbXorsBlockAndPermutes : Prop :=
  ∀ r, 1 ≤ r → r ≤ 200 →
    absorb [] r = Vector.replicate 200 0 ∧
    ∀ Q B : Bytes, Q.length % r = 0 → B.length = r →
      absorb (Q ++ B) r = keccakFBytes (Vector.ofFn fun k : Fin 200 =>
        if k.val < r then (absorb Q r)[k] ^^^ B.getD k.val 0 else (absorb Q r)[k])

/-- R68: output byte `m` is byte `m mod r` of the state after `m div r` further permutations, and exactly `n` bytes are
kept. -/
def Obligations.SqueezeBytesOfPermutedStates : Prop :=
  ∀ (WS : StateBytes) (r n : Nat), 1 ≤ r → r ≤ 200 →
    (squeeze WS r n).length = n ∧
    ∀ m, m < n → (squeeze WS r n)[m]? = ((keccakFBytes^[m / r]) WS)[m % r]?

/-- R69: the sponge is padding, absorbing and squeezing at the rate of its capacity; its output has `d/8` bytes and
extends every shorter output for the same input. -/
def Obligations.SpongeOutputsArePrefixes : Prop :=
  ∀ (P : Bytes) (c : Capacity),
    (∀ d, sponge P d c = squeeze (absorb (pad P ((1600 - c.val) / 8)) ((1600 - c.val) / 8)) ((1600 - c.val) / 8) (d / 8) ∧
      (sponge P d c).length = d / 8) ∧
    ∀ d₁ d₂, d₁ % 8 = 0 → d₂ % 8 = 0 → d₁ ≤ d₂ → sponge P d₁ c = (sponge P d₂ c).take (d₁ / 8)

/-! ### Encoding unit (`42_encoding_primitives.md`) -/

/-- R75: `be(x)` is the minimal big-endian representation. -/
def Obligations.BigEndianIsMinimal : Prop :=
  be 0 = [0x00] ∧
  ∀ x : Nat, (be x).foldl (fun a d => 256 * a + d.toNat) 0 = x ∧ 1 ≤ (be x).length ∧
    (0 < x → (be x).head? ≠ some 0x00 ∧ 256 ^ ((be x).length - 1) ≤ x ∧ x < 256 ^ (be x).length) ∧
    (x < 2 ^ 2040 → (be x).length ≤ 255)

/-- R76, R77: the length encodings on their domain, where the length byte is exact, and the fault outside it. -/
def Obligations.LengthEncodingsOnDomain : Prop :=
  ∀ x : Nat,
    (x < 2 ^ 2040 →
      ∃ n : Byte, n.toNat = (be x).length ∧ leftEncode x = .ok (n :: be x) ∧ rightEncode x = .ok (be x ++ [n])) ∧
    (2 ^ 2040 ≤ x → leftEncode x = .error .encodeDomain ∧ rightEncode x = .error .encodeDomain)

/-- R81: the string and what follows it are recovered from `encode_string(X) || Y`; `left_encode` is injective, and none
of its values is a proper prefix of another; the length prefix grows from 2 to 3 bytes at 32 bytes. -/
def Obligations.EncodeStringParsesBack : Prop :=
  (∀ X Y : Bytes, X.length < 2 ^ 2037 →
    ∃ E, encodeString X = .ok E ∧ parseString (E ++ Y) = some (X, Y)) ∧
  (∀ (x y : Nat) (p q : Bytes), leftEncode x = .ok p → leftEncode y = .ok q → p <+: q → x = y) ∧
  (∀ X : Bytes, X.length ≤ 31 → ∃ E, encodeString X = .ok E ∧ E.length = X.length + 2) ∧
  (∀ X : Bytes, X.length = 32 → ∃ E, encodeString X = .ok E ∧ E.length = X.length + 3)

/-- R79: `bytepad` prefixes `left_encode(w)` and adds zero bytes up to the least multiple of `w`; `w = 0` is
`BAD_PAD_WIDTH`; at the engine's width 136 the prefix is `01 88` and nothing fails. -/
def Obligations.BytepadFillsLeastMultiple : Prop :=
  (∀ X : Bytes, bytepad X 0 = .error .badPadWidth) ∧
  (∀ (X : Bytes) (w : Nat), 1 ≤ w → w < 2 ^ 2040 →
    ∃ p k, leftEncode w = .ok p ∧ bytepad X w = .ok (p ++ X ++ List.replicate k 0x00) ∧
      ((p ++ X).length + k) % w = 0 ∧ k < w) ∧
  (∀ X : Bytes, ∃ k, bytepad X 136 = .ok ([0x01, 0x88] ++ X ++ List.replicate k 0x00))

/-! ### SHAKE256, cSHAKE256, KMACXOF256 (`43_shake_cshake.md`, `44_kmacxof.md`) -/

/-- R85: what SHAKE256 absorbs is `X || 9F` when no room is left for a separate `80`, and otherwise
`X || 1F || zeros(k) || 80` with the least `k` that fills a block. -/
def Obligations.ShakeAbsorbsSuffixAndPadding : Prop :=
  ∀ (X : Bytes) (d : Nat),
    (X.length % 136 = 135 → shake256 X d = sponge (X ++ [0x9F]) d cap512 ∧ pad (X ++ [0x9F]) 136 = X ++ [0x9F]) ∧
    (X.length % 136 ≠ 135 → shake256 X d = sponge (X ++ [0x1F]) d cap512 ∧
      ∃ k < 136, (X.length + 2 + k) % 136 = 0 ∧
        pad (X ++ [0x1F]) 136 = X ++ [0x1F] ++ List.replicate k 0x00 ++ [0x80])

/-- R87: both strings empty is SHAKE256; otherwise the sponge of `bytepad(encode_string(N) || encode_string(C), 136) || X
|| 04`, the `bytepad` part being whole blocks, one block when the strings leave room; an empty string contributes `01 00`; and the
fault when a string is too long to encode. -/
def Obligations.CshakeBuildsItsInput : Prop :=
  (∀ (X : Bytes) (d : Nat), cshake256 X d [] [] = .ok (shake256 X d)) ∧
  (∀ (X N C : Bytes) (d : Nat), N ≠ [] ∨ C ≠ [] → N.length < 2 ^ 2037 → C.length < 2 ^ 2037 →
    ∃ n c p, encodeString N = .ok n ∧ encodeString C = .ok c ∧ bytepad (n ++ c) 136 = .ok p ∧ p.length % 136 = 0 ∧
      (2 + n.length + c.length ≤ 136 → p.length = 136) ∧ (N = [] → n = [0x01, 0x00]) ∧ (C = [] → c = [0x01, 0x00]) ∧
      cshake256 X d N C = .ok (sponge (p ++ X ++ [0x04]) d cap512)) ∧
  (∀ (X N C : Bytes) (d : Nat), 2 ^ 2037 ≤ N.length ∨ 2 ^ 2037 ≤ C.length →
    cshake256 X d N C = .error .encodeDomain)

/-- The corner of R89: with a string that is not empty, the last absorbed byte is the suffix `04` and no final bit is
absorbed exactly when `len(X) mod 136 = 135`; otherwise the last absorbed byte is `80`. -/
def Obligations.CshakeWholeBlockHasNoFinalBit : Prop :=
  ∀ (X N C T : Bytes), cshakeInput X N C = .ok T →
    (X.length % 136 = 135 → pad T 136 = T ∧ (pad T 136).getLast? = some 0x04) ∧
    (X.length % 136 ≠ 135 → (pad T 136).getLast? = some 0x80)

/-- R95: the layout of what KMACXOF256 absorbs. -/
def Obligations.KmacAbsorbedLayout : Prop :=
  ∀ (K X C : Bytes) (d : Nat), K.length < 2 ^ 2037 → C.length < 2 ^ 2037 →
    ∃ eC eK T, encodeString C = .ok eC ∧ encodeString K = .ok eK ∧
      T = [0x01, 0x88] ++ [0x01, 0x20, 0x4B, 0x4D, 0x41, 0x43] ++ eC ++
          List.replicate ((136 - (8 + eC.length) % 136) % 136) 0x00 ++
        [0x01, 0x88] ++ eK ++ List.replicate ((136 - (2 + eK.length) % 136) % 136) 0x00 ++ X ++ [0x00, 0x01] ++ [0x04] ∧
      T.length % 136 = (X.length + 3) % 136 ∧
      kmacxof256 K X d C = .ok (sponge T d cap512) ∧ (pad T 136 = T ↔ X.length % 136 = 133)

/-! ### The five commands -/

/-- R133, and the pseudocode of R61: `PERMUTE` with 0 to 24 rounds completes: the lanes are permuted, `DONE` is set, nothing
else changes; with more it faults with `ROUNDS_RANGE` and records its word. -/
def Obligations.PermuteCompletes : Prop :=
  ∀ (rounds : BitVec 8) (s : State), s.status.fault = false →
    (∀ h : rounds.toNat ≤ 24, exec (.permute rounds) s =
      .next { s with
        lanes := keccakP s.lanes ⟨rounds.toNat, Nat.lt_succ_of_le h⟩
        status := { done := true, fault := false, cause := s.status.cause } }) ∧
    (24 < rounds.toNat → ∃ t, exec (.permute rounds) s = .next t ∧
      IsFaultEntry s t .roundsRange (encode (.permute rounds)))

/-- R72 where the operands are legal: `SPONGE` replaces `OUT` by `outbits/8` bytes of the sponge of `IN`, sets `DONE`, and
changes nothing else. -/
def Obligations.SpongeCompletes : Prop :=
  ∀ (cap : BitVec 16) (outbits : BitVec 32) (s : State) (hc : cap.toNat % 8 = 0 ∧ cap.toNat ≤ 1592),
    s.status.fault = false → outbits.toNat % 8 = 0 → outbits.toNat / 8 ≤ s.config.outMax.val →
    exec (.sponge cap outbits) s =
      .next { s with
        mem := { s.mem with out := sponge s.mem.inp outbits.toNat ⟨cap.toNat, hc⟩ }
        status := { done := true, fault := false, cause := s.status.cause } } ∧
    (sponge s.mem.inp outbits.toNat ⟨cap.toNat, hc⟩).length = outbits.toNat / 8

/-- R86 where the operand is legal: `SHAKE256` replaces `OUT` by `outbits/8` bytes, sets `DONE`, and changes nothing
else. -/
def Obligations.Shake256Completes : Prop :=
  ∀ (outbits : BitVec 32) (s : State),
    s.status.fault = false → outbits.toNat % 8 = 0 → outbits.toNat / 8 ≤ s.config.outMax.val →
    exec (.shake256 outbits) s =
      .next { s with
        mem := { s.mem with out := shake256 s.mem.inp outbits.toNat }
        status := { done := true, fault := false, cause := s.status.cause } } ∧
    (shake256 s.mem.inp outbits.toNat).length = outbits.toNat / 8

/-- R88 where the operand and the lengths are legal: `CSHAKE256` replaces `OUT` by the function's `outbits/8` bytes, sets
`DONE`, and changes nothing else. -/
def Obligations.Cshake256Completes : Prop :=
  ∀ (outbits : BitVec 32) (s : State),
    s.status.fault = false → outbits.toNat % 8 = 0 → outbits.toNat / 8 ≤ s.config.outMax.val →
    8 * s.mem.name.length < 2 ^ 2040 → 8 * s.mem.cust.length < 2 ^ 2040 →
    ∃ Z, cshake256 s.mem.inp outbits.toNat s.mem.name s.mem.cust = .ok Z ∧ Z.length = outbits.toNat / 8 ∧
      exec (.cshake256 outbits) s =
        .next { s with
          mem := { s.mem with out := Z }
          status := { done := true, fault := false, cause := s.status.cause } }

/-- R93 where the operand and the lengths are legal: `KMACXOF256` replaces `OUT` by the function's `outbits/8` bytes, sets
`DONE`, and changes nothing else. -/
def Obligations.Kmacxof256Completes : Prop :=
  ∀ (outbits : BitVec 32) (s : State),
    s.status.fault = false → outbits.toNat % 8 = 0 → outbits.toNat / 8 ≤ s.config.outMax.val →
    8 * s.mem.key.length < 2 ^ 2040 → 8 * s.mem.cust.length < 2 ^ 2040 →
    ∃ Z, kmacxof256 s.mem.key s.mem.inp outbits.toNat s.mem.cust = .ok Z ∧ Z.length = outbits.toNat / 8 ∧
      exec (.kmacxof256 outbits) s =
        .next { s with
          mem := { s.mem with out := Z }
          status := { done := true, fault := false, cause := s.status.cause } }

/-- The frame of `PERMUTE` (R10, R61, R136): no input buffer, parameter or host list changes; unless it raises a fault,
`OUT`, `FCMD`, `FAULT` and `CAUSE` are unchanged too, and if it does, `OUT` has no byte left. -/
def Obligations.PermuteFrame : Prop :=
  ∀ (rounds : BitVec 8) (s t : State), exec (.permute rounds) s = .next t →
    (∀ b i, b ≠ BufName.out → t.mem.byte b i = s.mem.byte b i) ∧
    t.config = s.config ∧ t.port = s.port ∧ t.returned = s.returned ∧
    (t.status.fault = s.status.fault →
      (∀ i, t.mem.byte .out i = s.mem.byte .out i) ∧ t.fcmd = s.fcmd ∧ t.status.cause = s.status.cause) ∧
    (t.status.fault ≠ s.status.fault → t.status.fault = true ∧ ∀ i, t.mem.byte .out i = none)

/-- The frame of the four sponge-class commands (R17, R72, R86, R88, R93, R136): the only bytes they store to are those
of `OUT`; every byte of the other buffers, the parameters and the host lists are unchanged; unless one raises a fault the
lanes, `FCMD`, `FAULT` and `CAUSE` are unchanged too. -/
def Obligations.SpongeClassFrame : Prop :=
  ∀ (i : Instr) (s t : State), spongeClass i → exec i s = .next t →
    (∀ b j, b ≠ BufName.out → t.mem.byte b j = s.mem.byte b j) ∧
    t.config = s.config ∧ t.port = s.port ∧ t.returned = s.returned ∧
    (t.status.fault = s.status.fault →
      t.lanes = s.lanes ∧ t.fcmd = s.fcmd ∧ t.status.cause = s.status.cause) ∧
    (t.status.fault ≠ s.status.fault → t.status.fault = true ∧ ∀ j, t.mem.byte .out j = none)

/-- R153: buffers a sponge-class command does not read, the lanes, `FCMD` and the old `OUT` have no influence on its
result: two live engines that agree on the parameters and on the buffers it reads end with the same `OUT`, `DONE` and
`FAULT`. -/
def Obligations.UnreadStateHasNoInfluence : Prop :=
  ∀ (i : Instr) (s t s' t' : State), spongeClass i →
    s.status.fault = false → t.status.fault = false → s.config = t.config →
    (∀ b ∈ buffersRead i, s.mem.get b = t.mem.get b) → exec i s = .next s' → exec i t = .next t' →
    s'.mem.out = t'.mem.out ∧ s'.status.done = t'.status.done ∧ s'.status.fault = t'.status.fault

/-! ### Faults (`60_exceptions.md`) -/

/-- R136: the fault entry; the faulted engine ignores every later write and issue and records no second fault; a command
that faults has no effect other than the entry. -/
def Obligations.FaultEntryZeroisesAndRecords : Prop :=
  (∀ (s : State) (c : Cause) (w : Word), s.status.fault = false →
    IsFaultEntry s (s.raiseFault c w) c w ∧ (∀ c' w', (s.raiseFault c w).raiseFault c' w' = s.raiseFault c w) ∧
    (∀ b X, performPort (.hwrbuf b X) (s.raiseFault c w) = .next (s.raiseFault c w)) ∧
    (∀ i v, performPort (.hwrlane i v) (s.raiseFault c w) = .next (s.raiseFault c w)) ∧
    ∀ w', performPort (.hissue w') (s.raiseFault c w) = .next (s.raiseFault c w)) ∧
  ∀ (i : Instr) (s t : State), s.status.fault = false → exec i s = .next t → t.status.fault = true →
    ∃ c, IsFaultEntry s t c (encode i)

/-- R139: an issue reports at most one fault, the first in the order of the rule: `ILLEGAL_COMMAND`, then the first test
of `firstFault` that fails; with no fault it completes; with the rule's three examples. -/
def Obligations.FirstFaultIsReported : Prop :=
  (∀ (w : Word) (s : State), s.status.fault = false →
    ∃ t, portHissue w s = .next t ∧
      match decode w with
      | .error _ => IsFaultEntry s t .illegalCommand w
      | .ok i =>
        match firstFault i s with
        | some c => IsFaultEntry s t c w
        | none => t.status.done = true ∧ t.status.fault = false) ∧
  (∀ s : State, s.status.fault = false →
    (∃ t, portHissue 0x0200020100000007 s = .next t ∧ t.status.cause = Cause.badCapacity.code) ∧
    (∃ t, portHissue 0x0200020000000007 s = .next t ∧ t.status.cause = Cause.outlenNotByteMultiple.code) ∧
    ∃ t, portHissue 0x0201020100000007 s = .next t ∧ t.status.cause = Cause.illegalCommand.code)

/-- R134: `SPONGE` faults with `BAD_CAPACITY` on an illegal capacity, and no other command ever does. -/
def Obligations.BadCapacityFault : Prop :=
  (∀ (cap : BitVec 16) (outbits : BitVec 32) (s : State), s.status.fault = false →
    ∃ t, exec (.sponge cap outbits) s = .next t ∧
      if cap.toNat % 8 ≠ 0 ∨ 1592 < cap.toNat then IsFaultEntry s t .badCapacity (encode (.sponge cap outbits))
      else ¬(t.status.fault = true ∧ t.status.cause = Cause.badCapacity.code)) ∧
  (∀ (i : Instr) (s t : State), s.status.fault = false → i.row ≠ rowSponge → exec i s = .next t →
    ¬(t.status.fault = true ∧ t.status.cause = Cause.badCapacity.code))

/-- R135: the two faults of an output length, for every sponge-class command whose earlier checks pass; with the
suggested `OUT_MAX` the second is never raised, and `outbits = 0` raises neither. -/
def Obligations.OutputLengthFaults : Prop :=
  (∀ (i : Instr) (o : BitVec 32) (s : State), s.status.fault = false → outbitsOf i = some o →
    (∀ c o', i = .sponge c o' → c.toNat % 8 = 0 ∧ c.toNat ≤ 1592) →
    ∃ t, exec i s = .next t ∧
      (o.toNat % 8 ≠ 0 → IsFaultEntry s t .outlenNotByteMultiple (encode i)) ∧
      (o.toNat % 8 = 0 → s.config.outMax.val < o.toNat / 8 → IsFaultEntry s t .outlenTooLong (encode i)) ∧
      (o = 0 → ¬(t.status.fault = true ∧
        (t.status.cause = Cause.outlenNotByteMultiple.code ∨ t.status.cause = Cause.outlenTooLong.code)))) ∧
  (∀ (i : Instr) (s t : State), s.status.fault = false → s.config.outMax.val = 536870911 → exec i s = .next t →
    ¬(t.status.fault = true ∧ t.status.cause = Cause.outlenTooLong.code))

/-- R137: `ENCODE_DOMAIN` is raised exactly by the two commands that encode a length, when a buffer they encode is too
long and the earlier checks pass; a finite `BUF_MAX < 2^2037` makes it unreachable; `BAD_PAD_WIDTH` is the fault of
`bytepad(X, 0)` and no command raises it. -/
def Obligations.EncodeDomainFault : Prop :=
  (∀ (i : Instr) (s : State), s.status.fault = false → spongeClass i → i.wellFormed = true →
    outputFits i s.config →
    ∃ t, exec i s = .next t ∧
      ((∃ b ∈ buffersEncoded i, 2 ^ 2040 ≤ 8 * s.mem.len b) → IsFaultEntry s t .encodeDomain (encode i)) ∧
      ((∀ b ∈ buffersEncoded i, 8 * s.mem.len b < 2 ^ 2040) → t.status.fault = false)) ∧
  (∀ (i : Instr) (s t : State) (m : Nat), s.status.fault = false → s.config.bufMax = some m → m < 2 ^ 2037 →
    s.mem.wf s.config = true → exec i s = .next t →
    ¬(t.status.fault = true ∧ t.status.cause = Cause.encodeDomain.code)) ∧
  (∀ X : Bytes, bytepad X 0 = .error .badPadWidth) ∧
  (∀ (i : Instr) (s t : State), s.status.fault = false → exec i s = .next t →
    ¬(t.status.fault = true ∧ t.status.cause = Cause.badPadWidth.code))

/-- R138: the port faults and their `FCMD` values; a faulting `HRDLANE` returns zero; an unbounded `BUF_MAX` never
overflows. -/
def Obligations.PortFaultsAreRecorded : Prop :=
  ∀ s : State, s.status.fault = false →
    (∀ (b : BufName) (X : Bytes) (m : Nat), b ≠ .out → s.config.bufMax = some m → m < X.length →
      ∃ t, performPort (.hwrbuf (some b) X) s = .next t ∧ IsFaultEntry s t .bufferOverflow
        ((0xFF : BitVec 8) ++ (0x01 : BitVec 8) ++
          (match b with | .inp => (0 : BitVec 8) | .key => 1 | .name => 2 | .cust => 3 | .out => 4) ++
          BitVec.ofNat 40 (min X.length (2 ^ 40 - 1)))) ∧
    (∀ (b : Option BufName) (X : Bytes), b = none ∨ b = some .out →
      (∀ m, s.config.bufMax = some m → X.length ≤ m) →
      ∃ t, performPort (.hwrbuf b X) s = .next t ∧ IsFaultEntry s t .badPortIndex
        ((0xFF : BitVec 8) ++ (0x01 : BitVec 8) ++ (if b = none then (0xFF : BitVec 8) else 4) ++
          BitVec.ofNat 40 (min X.length (2 ^ 40 - 1)))) ∧
    (∀ (i : Nat) (v : Lane), 24 < i →
      ∃ t, performPort (.hwrlane i v) s = .next t ∧ IsFaultEntry s t .badPortIndex
        ((0xFF : BitVec 8) ++ (0x02 : BitVec 8) ++ (0 : BitVec 8) ++ BitVec.ofNat 40 (min i (2 ^ 40 - 1)))) ∧
    (∀ i : Nat, 24 < i →
      ∃ t, performPort (.hrdlane i) s = .next { t with returned := s.returned ++ [.u64 0] } ∧
        IsFaultEntry s t .badPortIndex
          ((0xFF : BitVec 8) ++ (0x03 : BitVec 8) ++ (0 : BitVec 8) ++ BitVec.ofNat 40 (min i (2 ^ 40 - 1)))) ∧
    (∀ (b : BufName) (X : Bytes), s.config.bufMax = none → b ≠ .out →
      ∃ t, performPort (.hwrbuf (some b) X) s = .next t ∧ t.status = s.status)

/-- The bits of `STATUS` (R13) and the numbering of the causes (R131). -/
def Obligations.StatusBitsAndCauseCodes : Prop :=
  (∀ (st : Status) (z : Nat), st.word.getLsbD z =
    if z = 0 then st.done else if z = 1 then st.fault
    else if 8 ≤ z ∧ z ≤ 15 then st.cause.getLsbD (z - 8) else false) ∧
  (∀ c c' : Cause, c.code = c'.code → c = c') ∧ (∀ c : Cause, 0x01 ≤ c.code.toNat ∧ c.code.toNat ≤ 0x09) ∧
  Cause.illegalCommand.code = 0x01 ∧ Cause.roundsRange.code = 0x02 ∧ Cause.badCapacity.code = 0x03 ∧
  Cause.outlenNotByteMultiple.code = 0x04 ∧ Cause.outlenTooLong.code = 0x05 ∧ Cause.encodeDomain.code = 0x06 ∧
  Cause.badPadWidth.code = 0x07 ∧ Cause.bufferOverflow.code = 0x08 ∧ Cause.badPortIndex.code = 0x09

/-! ### The host port (`45_host_port.md`), reset (`70_reset_and_hazards.md`) -/

/-- R19, R101: the value of every piece of the engine's state right after reset, for any parameters; `HRESET` brings every
state, faulted or not, to those values, and no other operation clears `FAULT`. -/
def Obligations.ResetValuesAndHreset : Prop :=
  (∀ c : Config, (∀ i, (State.resetWith c).lane i = 0) ∧ (∀ b, (State.resetWith c).mem.get b = []) ∧
    (State.resetWith c).status.word = 0x0000000000000000 ∧ (State.resetWith c).status.done = false ∧
    (State.resetWith c).status.fault = false ∧ (State.resetWith c).status.cause = 0x00 ∧
    (State.resetWith c).fcmd = 0x0000000000000000) ∧
  (∀ s : State, ∃ t, performPort .hreset s = .next t ∧ (∀ i, t.lane i = 0) ∧ (∀ b, t.mem.get b = []) ∧
    t.status.word = 0x0000000000000000 ∧ t.fcmd = 0x0000000000000000) ∧
  ∀ (op : PortOp) (s t : State), s.status.fault = true → performPort op s = .next t → t.status.fault = false →
    op = .hreset

/-- What `HWRBUF` of an input buffer does on a live engine (R102): the whole content and length are replaced, the other
buffers and `DONE` are unchanged, and an oversized write faults. That a write of a buffer the host may not write faults with
`BAD_PORT_INDEX` whatever the length is the model's choice where both tests fail (log entry 6). -/
def Obligations.HwrbufReplacesWholeBuffer : Prop :=
  (∀ (s : State) (b : Option BufName) (X : Bytes), s.status.fault = false → b = none ∨ b = some .out →
    ∃ t, performPort (.hwrbuf b X) s = .next t ∧ t.status.cause = Cause.badPortIndex.code ∧
      ∀ b', b' ≠ .out → t.mem.get b' = s.mem.get b') ∧
  ∀ (s : State) (b : BufName) (X : Bytes), s.status.fault = false → b ≠ .out →
    ((∀ m, s.config.bufMax = some m → X.length ≤ m) →
      ∃ t, performPort (.hwrbuf (some b) X) s = .next t ∧ t.mem.get b = X ∧
        (∀ b', b' ≠ b → t.mem.get b' = s.mem.get b') ∧ t.lanes = s.lanes ∧ t.status = s.status ∧ t.fcmd = s.fcmd ∧
        t.config = s.config ∧ t.port = s.port ∧ t.returned = s.returned) ∧
    (∀ m, s.config.bufMax = some m → m < X.length →
      ∃ t, performPort (.hwrbuf (some b) X) s = .next t ∧ t.status.cause = Cause.bufferOverflow.code ∧
        t.mem.get b = s.mem.get b)

/-- R103, R104: a lane write changes that lane only; a lane read returns it and changes nothing; an index above 24
faults with `BAD_PORT_INDEX`. -/
def Obligations.LanePortsMoveOneLane : Prop :=
  ∀ (s : State) (i : Nat) (v : Lane), s.status.fault = false →
    (i ≤ 24 →
      (∃ t, performPort (.hwrlane i v) s = .next t ∧ t.lane i = v ∧ (∀ j, j ≠ i → t.lane j = s.lane j) ∧
        t.mem = s.mem ∧ t.status = s.status ∧ t.fcmd = s.fcmd ∧ t.config = s.config ∧ t.port = s.port ∧
        t.returned = s.returned) ∧
      performPort (.hrdlane i) s = .next { s with returned := s.returned ++ [.u64 (s.lane i)] }) ∧
    (24 < i →
      (∃ t, performPort (.hwrlane i v) s = .next t ∧ t.status.fault = true ∧
        t.status.cause = Cause.badPortIndex.code) ∧
      ∃ t, performPort (.hrdlane i) s = .next t ∧ t.status.fault = true ∧
        t.status.cause = Cause.badPortIndex.code)

/-- R107 to R109, and `HRDOUT` on a live engine: the other reading operations return `OUT`, `STATUS`, `FCMD` and a buffer's
length, and change nothing of the engine. -/
def Obligations.ReadingOperationsReturnState : Prop :=
  ∀ s : State,
    (s.status.fault = false → performPort .hrdout s = .next { s with returned := s.returned ++ [.bytes s.mem.out] }) ∧
    performPort .hrdstatus s = .next { s with returned := s.returned ++ [.u64 s.status.word] } ∧
    performPort .hrdfcmd s = .next { s with returned := s.returned ++ [.u64 s.fcmd] } ∧
    ∀ b, performPort (.hrdlen b) s = .next { s with returned := s.returned ++ [.natural (s.mem.get b).length] }

/-- R110: the port while `STATUS.FAULT = 1`. -/
def Obligations.FaultedPortIgnoresWrites : Prop :=
  ∀ s : State, s.status.fault = true →
    (∀ b X, performPort (.hwrbuf b X) s = .next s) ∧ (∀ i v, performPort (.hwrlane i v) s = .next s) ∧
    (∀ w, performPort (.hissue w) s = .next s) ∧
    (∀ i, performPort (.hrdlane i) s = .next { s with returned := s.returned ++ [.u64 0] }) ∧
    performPort .hrdout s = .next { s with returned := s.returned ++ [.bytes []] } ∧
    (∀ b, performPort (.hrdlen b) s = .next { s with returned := s.returned ++ [.natural (s.mem.get b).length] }) ∧
    (s.Inv → performPort (.hrdlen .out) s = .next { s with returned := s.returned ++ [.natural 0] }) ∧
    performPort .hrdstatus s = .next { s with returned := s.returned ++ [.u64 s.status.word] } ∧
    performPort .hrdfcmd s = .next { s with returned := s.returned ++ [.u64 s.fcmd] } ∧
    ∃ t, performPort .hreset s = .next t ∧ t.status.fault = false

/-- R105: a step whose port operation issues a word that decodes to a command is that command, with `DONE` cleared first
and the operation taken off the host's list; a word that decodes to none faults; and afterwards `DONE` is set, or
`FAULT` is set and `FCMD` holds the word. -/
def Obligations.StepRunsIssuedCommand : Prop :=
  ∀ (s : State) (w : Word) (rest : List PortOp), s.port = .hissue w :: rest → s.status.fault = false →
    (∀ i, decode w = .ok i →
      step s = exec i { s with port := rest, status := { s.status with done := false } }) ∧
    (∀ e, decode w = .error e → ∃ t, step s = .next t ∧ IsFaultEntry { s with port := rest } t .illegalCommand w) ∧
    ∃ t, step s = .next t ∧ (t.status.done = true ∧ t.status.fault = false ∨
      t.status.done = false ∧ t.status.fault = true ∧ t.fcmd = w)

/-- Every state has a next state: no step of the engine stops, and the parameters never change (R5, R41, R159). That a
step with nothing asked of it changes nothing (log entry 2), and that `HRESET` keeps the host's remaining operations and the
values it has received (log entry 16), is the model's choice. -/
def Obligations.EveryStepHasNextState : Prop :=
  ∀ s : State, (∃ t, step s = .next t ∧ t.config = s.config ∧ t.port = s.port.tail ∧ s.returned <+: t.returned) ∧
    (s.port = [] → step s = .next s)

/-! ### Whole-machine rules -/

/-- The invariant of a reachable state (R13, R14, R16, R110, R131, R136) is kept by every step. -/
def Obligations.InvariantKeptByEveryStep : Prop :=
  ∀ s t : State, s.Inv → step s = .next t → t.Inv

/-- The invariant holds right after reset, whatever the parameters. -/
def Obligations.InvariantHoldsAtReset : Prop := ∀ c : Config, (State.resetWith c).Inv

/-- The record of a faulted engine is true (R132 to R138), and every step keeps it so. The clause of cause `0x08`, that its
record names an input buffer and never `OUT` or a buffer that does not exist, rests on the model's choice of log entry
6. -/
def Obligations.FaultRecordStaysTrue : Prop :=
  ∀ s t : State, s.faultExplained → step s = .next t → t.faultExplained

/-- R141: only `HRESET` leaves the faulted state, and until then nothing of the engine's state changes; `HRESET` restores
the reset state, the lanes and all buffers lost. -/
def Obligations.OnlyResetLeavesFault : Prop :=
  (∀ s t : State, s.status.fault = true → step s = .next t → s.port.head? ≠ some .hreset →
    t.status = s.status ∧ t.fcmd = s.fcmd ∧ t.lanes = s.lanes ∧ t.mem = s.mem) ∧
  ∀ (s : State) (rest : List PortOp), s.port = .hreset :: rest →
    ∃ t, step s = .next t ∧ t.status = State.reset.status ∧ t.fcmd = State.reset.fcmd ∧ t.lanes = State.reset.lanes ∧
      t.mem = State.reset.mem

/-- The lane file is changed by a lane write, a `PERMUTE`, a fault or a reset, and by nothing else (R10, R17, R154). -/
def Obligations.LaneFileHasFewWriters : Prop :=
  ∀ s t : State, step s = .next t → t.lanes ≠ s.lanes →
    (∃ i v rest, s.port = .hwrlane i v :: rest) ∨ (∃ w r rest, s.port = .hissue w :: rest ∧ decode w = .ok (.permute r)) ∨
    (s.status.fault = false ∧ t.status.fault = true) ∨ ∃ rest, s.port = .hreset :: rest

/-- An input buffer keeps its content until the host replaces it or resets: no command and no fault changes one (R136,
R153). -/
def Obligations.InputBuffersChangedByHostOnly : Prop :=
  ∀ (s t : State) (b : BufName), b ≠ .out → step s = .next t → t.mem.get b ≠ s.mem.get b →
    (∃ X rest, s.port = .hwrbuf (some b) X :: rest ∧ t.mem.get b = X) ∨ ∃ rest, s.port = .hreset :: rest

/-- No port operation but the issue of a sponge-class command lets the host tell two input-buffer contents of the same
lengths apart (R155): states that differ only there step to states that differ only there. -/
def Obligations.InputContentsCannotBeReadBack : Prop :=
  ∀ s t s' : State, SameButInputContents s t →
    (∀ w i rest, s.port = .hissue w :: rest → decode w = .ok i → ¬spongeClass i) → step s = .next s' →
    ∃ t', step t = .next t' ∧ SameButInputContents s' t'

/-! ### The host layer (`46_host_layer.md`) -/

/-- R115: on a live engine, whatever it held before, the five port operations of one `KMACXOF256(K, X, d, C)` of the host
layer return its value and leave the lanes alone, if the operands fit `BUF_MAX` and their length encodings, and the output
is a whole number of bytes that fits `OUT_MAX`. -/
def Obligations.HostCallReturnsKmac : Prop :=
  ∀ (s : State) (K X C Z : Bytes) (d : BitVec 32) (rest : List PortOp),
    s.port = kmacCall K X d C ++ rest → s.status.fault = false →
    (∀ m, s.config.bufMax = some m → K.length ≤ m ∧ X.length ≤ m ∧ C.length ≤ m) →
    d.toNat % 8 = 0 → d.toNat / 8 ≤ s.config.outMax.val → 8 * K.length < 2 ^ 2040 → 8 * C.length < 2 ^ 2040 →
    kmacxof256 K X d.toNat C = .ok Z →
    ∃ t, core.run 5 s = .next t ∧ State.returned t = s.returned ++ [.bytes Z] ∧ State.port t = rest ∧
      State.lanes t = s.lanes

/-- Round-trip and length preservation of the host layer's encryption, for every nonce (R120, R122): what `encrypt`
returns is 128 bytes longer than the message, starts with the nonce, and decrypts to the message under the same
passphrase. -/
def Obligations.DecryptOfEncryptIsMessage : Prop :=
  ∀ (rand : Vector Byte 64) (m p c : Bytes), encrypt rand m p = .ok c →
    c.length = m.length + 128 ∧ c.take 64 = rand.toList ∧ decrypt c p = .ok m

/-- `decrypt` returns a message only when the tag recomputed from it is the cryptogram's last 64 bytes, and refuses a
cryptogram of fewer than 128 bytes (R119, R121). -/
def Obligations.DecryptReleasesOnlyAuthenticated : Prop :=
  (∀ c p : Bytes, c.length < 128 → decrypt c p = .error .cryptogramTooShort) ∧
  (∀ c p m : Bytes, decrypt c p = .ok m →
    128 ≤ c.length ∧ ∃ keys, deriveKeys (c.take 64) p = .ok keys ∧
      hostKmac keys.2 m 512 custSKA = .ok (c.drop (c.length - 64)))

/-- Hex conversion (R123): two uppercase digits a byte, no delimiter, and a parse recovers the bytes whatever white space
stands between the digits. Which characters are white space is the model's choice (log entry 14). -/
def Obligations.HexRoundTripIgnoresBlanks : Prop :=
  ∀ X : Bytes, (toHex X).length = 2 * X.length ∧ (∀ ch ∈ toHex X, ch ∈ "0123456789ABCDEF".toList) ∧
    ∀ text : List Char, (text.filter fun ch => !isBlank ch) = toHex X → fromHex text = some X
end

