-- ==== Sys2Proof/Laws/Decode.lean ====
section
/-! SUPPORT. The fields of a word of format `K`, and what each row's selection test says about a word's fields. -/

namespace Sys2Proof

/-! ### The fields of `formatK` -/

theorem opField_formatK (op r : BitVec 8) (c : BitVec 16) (o : BitVec 32) : opField (formatK op r c o) = op := by
  apply BitVec.eq_of_getLsbD_eq
  intro i hi
  simp only [opField, formatK, BitVec.getLsbD_extractLsb', BitVec.getLsbD_append]
  simp [hi, show ¬56 + i < 32 by omega, show ¬56 + i - 32 < 16 by omega, show ¬56 + i - 32 - 16 < 8 by omega,
    show 56 + i - 32 - 16 - 8 = i by omega]

theorem roundsField_formatK (op r : BitVec 8) (c : BitVec 16) (o : BitVec 32) : roundsField (formatK op r c o) = r := by
  apply BitVec.eq_of_getLsbD_eq
  intro i hi
  simp only [roundsField, formatK, BitVec.getLsbD_extractLsb', BitVec.getLsbD_append]
  simp [hi, show ¬48 + i < 32 by omega, show ¬48 + i - 32 < 16 by omega,
    show 48 + i - 32 - 16 = i by omega]

theorem capField_formatK (op r : BitVec 8) (c : BitVec 16) (o : BitVec 32) : capField (formatK op r c o) = c := by
  apply BitVec.eq_of_getLsbD_eq
  intro i hi
  simp only [capField, formatK, BitVec.getLsbD_extractLsb', BitVec.getLsbD_append]
  simp [hi]

theorem outbitsField_formatK (op r : BitVec 8) (c : BitVec 16) (o : BitVec 32) :
    outbitsField (formatK op r c o) = o := by
  apply BitVec.eq_of_getLsbD_eq
  intro i hi
  simp only [outbitsField, formatK, BitVec.getLsbD_extractLsb', BitVec.getLsbD_append]
  simp [hi]

/-- A word is its four fields. -/
theorem formatK_fields (w : Word) : formatK (opField w) (roundsField w) (capField w) (outbitsField w) = w := by
  apply BitVec.eq_of_getLsbD_eq
  intro i hi
  simp only [formatK, opField, roundsField, capField, outbitsField, BitVec.getLsbD_extractLsb', BitVec.getLsbD_append]
  by_cases h1 : i < 32
  · simp [h1]
  · by_cases h2 : i < 48
    · simp [h1, show i - 32 < 16 by omega, show 32 + (i - 32) = i by omega]
    · by_cases h3 : i < 56
      · simp [h1, show ¬i - 32 < 16 by omega, show i - 32 - 16 < 8 by omega, show 48 + (i - 32 - 16) = i by omega]
      · simp [h1, show ¬i - 32 < 16 by omega, show ¬i - 32 - 16 < 8 by omega, show i - 32 - 16 - 8 < 8 by omega,
          show 56 + (i - 32 - 16 - 8) = i by omega]

/-- Two words are equal when their four fields are. -/
theorem word_ext_fields {w w' : Word} (h1 : opField w = opField w') (h2 : roundsField w = roundsField w')
    (h3 : capField w = capField w') (h4 : outbitsField w = outbitsField w') : w = w' := by
  rw [← formatK_fields w, ← formatK_fields w', h1, h2, h3, h4]

/-! ### The selection test of a row, field by field -/

theorem opField_and (w m : Word) : opField (w &&& m) = opField w &&& opField m := by
  simp [opField, BitVec.extractLsb'_and]

theorem roundsField_and (w m : Word) : roundsField (w &&& m) = roundsField w &&& roundsField m := by
  simp [roundsField, BitVec.extractLsb'_and]

theorem capField_and (w m : Word) : capField (w &&& m) = capField w &&& capField m := by
  simp [capField, BitVec.extractLsb'_and]

theorem outbitsField_and (w m : Word) : outbitsField (w &&& m) = outbitsField w &&& outbitsField m := by
  simp [outbitsField, BitVec.extractLsb'_and]

/-- The test `(w & mask) = match`, one field at a time. -/
theorem selects_iff (r : OpRow) (w : Word) :
    r.selects w = true ↔
      opField w &&& opField r.mask = opField r.matchVal ∧ roundsField w &&& roundsField r.mask = roundsField r.matchVal ∧
      capField w &&& capField r.mask = capField r.matchVal ∧
      outbitsField w &&& outbitsField r.mask = outbitsField r.matchVal := by
  rw [OpRow.selects, beq_iff_eq]
  constructor
  · intro h
    rw [← h]
    simp [opField_and, roundsField_and, capField_and, outbitsField_and]
  · rintro ⟨h1, h2, h3, h4⟩
    apply word_ext_fields
    · rw [opField_and, h1]
    · rw [roundsField_and, h2]
    · rw [capField_and, h3]
    · rw [outbitsField_and, h4]

theorem selects_permute (w : Word) :
    rowPermute.selects w = true ↔ opField w = 1 ∧ capField w = 0 ∧ outbitsField w = 0 := by
  rw [selects_iff]
  rw [show opField rowPermute.mask = BitVec.allOnes 8 by decide, show roundsField rowPermute.mask = 0 by decide,
    show capField rowPermute.mask = BitVec.allOnes 16 by decide,
    show outbitsField rowPermute.mask = BitVec.allOnes 32 by decide, show opField rowPermute.matchVal = 1 by decide,
    show roundsField rowPermute.matchVal = 0 by decide, show capField rowPermute.matchVal = 0 by decide,
    show outbitsField rowPermute.matchVal = 0 by decide]
  simp only [BitVec.and_allOnes]
  simp

theorem selects_sponge (w : Word) : rowSponge.selects w = true ↔ opField w = 2 ∧ roundsField w = 0 := by
  rw [selects_iff]
  rw [show opField rowSponge.mask = BitVec.allOnes 8 by decide,
    show roundsField rowSponge.mask = BitVec.allOnes 8 by decide, show capField rowSponge.mask = 0 by decide,
    show outbitsField rowSponge.mask = 0 by decide, show opField rowSponge.matchVal = 2 by decide,
    show roundsField rowSponge.matchVal = 0 by decide, show capField rowSponge.matchVal = 0 by decide,
    show outbitsField rowSponge.matchVal = 0 by decide]
  simp only [BitVec.and_allOnes]
  simp

/-- The three rows with the mask of `SHAKE256`: only `outbits` is free. -/
theorem selects_outbits_row (r : OpRow) (n : BitVec 8) (hm : r.mask = 0xFFFFFFFF00000000)
    (hv : opField r.matchVal = n ∧ roundsField r.matchVal = 0 ∧ capField r.matchVal = 0 ∧ outbitsField r.matchVal = 0)
    (w : Word) : r.selects w = true ↔ opField w = n ∧ roundsField w = 0 ∧ capField w = 0 := by
  rw [selects_iff, hm, hv.1, hv.2.1, hv.2.2.1, hv.2.2.2]
  rw [show opField 0xFFFFFFFF00000000 = BitVec.allOnes 8 by decide,
    show roundsField 0xFFFFFFFF00000000 = BitVec.allOnes 8 by decide,
    show capField 0xFFFFFFFF00000000 = BitVec.allOnes 16 by decide,
    show outbitsField 0xFFFFFFFF00000000 = 0 by decide]
  simp only [BitVec.and_allOnes]
  simp

theorem selects_shake256 (w : Word) :
    rowShake256.selects w = true ↔ opField w = 3 ∧ roundsField w = 0 ∧ capField w = 0 :=
  selects_outbits_row rowShake256 3 rfl (by decide) w

theorem selects_cshake256 (w : Word) :
    rowCshake256.selects w = true ↔ opField w = 4 ∧ roundsField w = 0 ∧ capField w = 0 :=
  selects_outbits_row rowCshake256 4 rfl (by decide) w

theorem selects_kmacxof256 (w : Word) :
    rowKmacxof256.selects w = true ↔ opField w = 5 ∧ roundsField w = 0 ∧ capField w = 0 :=
  selects_outbits_row rowKmacxof256 5 rfl (by decide) w

/-- Everything the decoder can answer. -/
theorem decode_cases (w : Word) :
    (rowPermute.selects w = true ∧ decode w = .ok (.permute (roundsField w))) ∨
    (rowSponge.selects w = true ∧ decode w = .ok (.sponge (capField w) (outbitsField w))) ∨
    (rowShake256.selects w = true ∧ decode w = .ok (.shake256 (outbitsField w))) ∨
    (rowCshake256.selects w = true ∧ decode w = .ok (.cshake256 (outbitsField w))) ∨
    (rowKmacxof256.selects w = true ∧ decode w = .ok (.kmacxof256 (outbitsField w))) ∨
    ((∀ r ∈ opRows, r.selects w = false) ∧ decode w = .error (rejection w)) := by
  unfold decode
  by_cases h1 : rowPermute.selects w = true
  · simp [h1]
  by_cases h2 : rowSponge.selects w = true
  · simp [h1, h2]
  by_cases h3 : rowShake256.selects w = true
  · simp [h1, h2, h3]
  by_cases h4 : rowCshake256.selects w = true
  · simp [h1, h2, h3, h4]
  by_cases h5 : rowKmacxof256.selects w = true
  · simp [h1, h2, h3, h4, h5]
  simp [h1, h2, h3, h4, h5, opRows]

end Sys2Proof
end

