-- ==== Sys2Proof/Laws/State.lean ====
section
/-! SUPPORT. What each update of the state does to each field: one lemma per field per update, true by `rfl`. -/

namespace Sys2Proof.Machine

@[simp] theorem setDone_lanes (s : State) : s.setDone.lanes = s.lanes := rfl
@[simp] theorem setDone_mem (s : State) : s.setDone.mem = s.mem := rfl
@[simp] theorem setDone_status (s : State) : s.setDone.status = s.status.setDone := rfl
@[simp] theorem setDone_fcmd (s : State) : s.setDone.fcmd = s.fcmd := rfl
@[simp] theorem setDone_config (s : State) : s.setDone.config = s.config := rfl
@[simp] theorem setDone_port (s : State) : s.setDone.port = s.port := rfl
@[simp] theorem setDone_returned (s : State) : s.setDone.returned = s.returned := rfl

@[simp] theorem clearDone_lanes (s : State) : s.clearDone.lanes = s.lanes := rfl
@[simp] theorem clearDone_mem (s : State) : s.clearDone.mem = s.mem := rfl
@[simp] theorem clearDone_status (s : State) : s.clearDone.status = s.status.clearDone := rfl
@[simp] theorem clearDone_fcmd (s : State) : s.clearDone.fcmd = s.fcmd := rfl
@[simp] theorem clearDone_config (s : State) : s.clearDone.config = s.config := rfl
@[simp] theorem clearDone_port (s : State) : s.clearDone.port = s.port := rfl
@[simp] theorem clearDone_returned (s : State) : s.clearDone.returned = s.returned := rfl

@[simp] theorem setLane_lanes (s : State) (i : Nat) (v : Lane) : (s.setLane i v).lanes = s.lanes.setIfInBounds i v := rfl
@[simp] theorem setLane_mem (s : State) (i : Nat) (v : Lane) : (s.setLane i v).mem = s.mem := rfl
@[simp] theorem setLane_status (s : State) (i : Nat) (v : Lane) : (s.setLane i v).status = s.status := rfl
@[simp] theorem setLane_fcmd (s : State) (i : Nat) (v : Lane) : (s.setLane i v).fcmd = s.fcmd := rfl
@[simp] theorem setLane_config (s : State) (i : Nat) (v : Lane) : (s.setLane i v).config = s.config := rfl
@[simp] theorem setLane_port (s : State) (i : Nat) (v : Lane) : (s.setLane i v).port = s.port := rfl
@[simp] theorem setLane_returned (s : State) (i : Nat) (v : Lane) : (s.setLane i v).returned = s.returned := rfl

@[simp] theorem setBuf_lanes (s : State) (b : BufName) (X : Bytes) : (s.setBuf b X).lanes = s.lanes := rfl
@[simp] theorem setBuf_mem (s : State) (b : BufName) (X : Bytes) : (s.setBuf b X).mem = s.mem.set b X := rfl
@[simp] theorem setBuf_status (s : State) (b : BufName) (X : Bytes) : (s.setBuf b X).status = s.status := rfl
@[simp] theorem setBuf_fcmd (s : State) (b : BufName) (X : Bytes) : (s.setBuf b X).fcmd = s.fcmd := rfl
@[simp] theorem setBuf_config (s : State) (b : BufName) (X : Bytes) : (s.setBuf b X).config = s.config := rfl
@[simp] theorem setBuf_port (s : State) (b : BufName) (X : Bytes) : (s.setBuf b X).port = s.port := rfl
@[simp] theorem setBuf_returned (s : State) (b : BufName) (X : Bytes) : (s.setBuf b X).returned = s.returned := rfl

@[simp] theorem giveHost_lanes (s : State) (v : PortValue) : (s.giveHost v).lanes = s.lanes := rfl
@[simp] theorem giveHost_mem (s : State) (v : PortValue) : (s.giveHost v).mem = s.mem := rfl
@[simp] theorem giveHost_status (s : State) (v : PortValue) : (s.giveHost v).status = s.status := rfl
@[simp] theorem giveHost_fcmd (s : State) (v : PortValue) : (s.giveHost v).fcmd = s.fcmd := rfl
@[simp] theorem giveHost_config (s : State) (v : PortValue) : (s.giveHost v).config = s.config := rfl
@[simp] theorem giveHost_port (s : State) (v : PortValue) : (s.giveHost v).port = s.port := rfl
@[simp] theorem giveHost_returned (s : State) (v : PortValue) : (s.giveHost v).returned = s.returned ++ [v] := rfl

@[simp] theorem faultEntry_lanes (s : State) (c : Cause) (w : Word) : (s.faultEntry c w).lanes = Vector.replicate 25 0 := rfl
@[simp] theorem faultEntry_mem (s : State) (c : Cause) (w : Word) : (s.faultEntry c w).mem = s.mem.set .out [] := rfl
@[simp] theorem faultEntry_status (s : State) (c : Cause) (w : Word) : (s.faultEntry c w).status = .faulted c := rfl
@[simp] theorem faultEntry_fcmd (s : State) (c : Cause) (w : Word) : (s.faultEntry c w).fcmd = w := rfl
@[simp] theorem faultEntry_config (s : State) (c : Cause) (w : Word) : (s.faultEntry c w).config = s.config := rfl
@[simp] theorem faultEntry_port (s : State) (c : Cause) (w : Word) : (s.faultEntry c w).port = s.port := rfl
@[simp] theorem faultEntry_returned (s : State) (c : Cause) (w : Word) : (s.faultEntry c w).returned = s.returned := rfl

@[simp] theorem status_setDone_done (st : Status) : st.setDone.done = true := rfl
@[simp] theorem status_setDone_fault (st : Status) : st.setDone.fault = st.fault := rfl
@[simp] theorem status_setDone_cause (st : Status) : st.setDone.cause = st.cause := rfl
@[simp] theorem status_clearDone_done (st : Status) : st.clearDone.done = false := rfl
@[simp] theorem status_clearDone_fault (st : Status) : st.clearDone.fault = st.fault := rfl
@[simp] theorem status_clearDone_cause (st : Status) : st.clearDone.cause = st.cause := rfl
@[simp] theorem status_faulted_done (c : Cause) : (Status.faulted c).done = false := rfl
@[simp] theorem status_faulted_fault (c : Cause) : (Status.faulted c).fault = true := rfl
@[simp] theorem status_faulted_cause (c : Cause) : (Status.faulted c).cause = c.code := rfl

/-- Clearing `DONE` leaves no trace in a fault entry (R136 writes all of `STATUS`). -/
@[simp] theorem faultEntry_clearDone (s : State) (c : Cause) (w : Word) :
    s.clearDone.faultEntry c w = s.faultEntry c w := rfl

/-- Clearing `DONE` leaves no trace in a completed command. -/
@[simp] theorem setDone_clearDone (s : State) : s.clearDone.setDone = s.setDone := rfl

end Sys2Proof.Machine
end

