-- ==== Sys2Proof/Laws/Ops.lean ====
section
/-! SUPPORT. What the shared operations can do: the buffers, the lanes, raising a fault, the operand checks, and the
frame a command runs in. -/

namespace Sys2Proof.Machine

/-! ### Sequencing of checks -/

theorem bind_ok {α β : Type} {x : Except Cause α} {f : α → Except Cause β} {b : β} :
    (x >>= f) = .ok b ↔ ∃ a, x = .ok a ∧ f a = .ok b := by
  cases x <;> simp [bind, Except.bind]

theorem bind_error {α β : Type} {x : Except Cause α} {f : α → Except Cause β} {c : Cause} :
    (x >>= f) = .error c ↔ x = .error c ∨ ∃ a, x = .ok a ∧ f a = .error c := by
  cases x <;> simp [bind, Except.bind]

/-! ### Buffers -/

@[simp] theorem memory_get_set_same (m : Memory) (b : BufName) (X : Bytes) : (m.set b X).get b = X := by
  cases b <;> rfl

theorem memory_get_set_ne (m : Memory) {b b' : BufName} (X : Bytes) (h : b' ≠ b) : (m.set b X).get b' = m.get b' := by
  cases b <;> cases b' <;> first | rfl | exact absurd rfl h

@[simp] theorem memory_get_set_out (m : Memory) (b : BufName) (X : Bytes) :
    (m.set .out X).get b = if b = .out then X else m.get b := by
  cases b <;> rfl

theorem memory_byte_set_ne (m : Memory) {b b' : BufName} (X : Bytes) (i : Nat) (h : b' ≠ b) :
    (m.set b X).byte b' i = m.byte b' i := by
  unfold Memory.byte
  rw [memory_get_set_ne m X h]

theorem memory_wf_iff (c : Config) (m : Memory) :
    m.wf c = true ↔ ∀ b, withinLimit (m.len b) (bufLimit c b) = true := by
  constructor
  · intro h b
    simp only [Memory.wf, List.all_eq_true] at h
    exact h b (by cases b <;> simp)
  · intro h
    simp [Memory.wf, h]

/-- Every buffer write of the engine keeps the buffers within their greatest lengths: the one lemma about `BufSet`. -/
theorem memory_wf_set (c : Config) {m : Memory} (b : BufName) {X : Bytes} (hm : m.wf c = true)
    (hX : withinLimit X.length (bufLimit c b) = true) : (m.set b X).wf c = true := by
  rw [memory_wf_iff] at hm ⊢
  intro b'
  by_cases hb : b' = b
  · subst hb
    simpa [Memory.len] using hX
  · simpa [Memory.len, memory_get_set_ne m X hb] using hm b'

theorem memory_wf_clear_out (c : Config) {m : Memory} (hm : m.wf c = true) : (m.set .out []).wf c = true :=
  memory_wf_set c .out hm (by simp [withinLimit, bufLimit])

theorem memory_wf_empty (c : Config) : Memory.empty.wf c = true := by
  rw [memory_wf_iff]
  intro b
  cases b <;> simp [Memory.empty, Memory.len, Memory.get, withinLimit, bufLimit] <;> cases c.bufMax <;> simp

/-! ### Lanes -/

theorem lane_eq (s : State) {i : Nat} (h : i < 25) : s.lane i = s.lanes[i] := by
  simp [State.lane, h]

theorem lane_out_of_range (s : State) {i : Nat} (h : 24 < i) : s.lane i = 0 := by
  have hi : ¬i < 25 := by omega
  simp [State.lane, hi]

theorem lane_setLane_same (s : State) {i : Nat} (v : Lane) (h : i < 25) : (s.setLane i v).lane i = v := by
  rw [lane_eq _ h]
  simp

theorem lane_setLane_ne (s : State) {i j : Nat} (v : Lane) (h : j ≠ i) : (s.setLane i v).lane j = s.lane j := by
  by_cases hj : j < 25
  · rw [lane_eq _ hj, lane_eq _ hj]
    simp [Ne.symm h]
  · rw [lane_out_of_range _ (by omega), lane_out_of_range _ (by omega)]

@[simp] theorem lane_faultEntry (s : State) (c : Cause) (w : Word) (i : Nat) : (s.faultEntry c w).lane i = 0 := by
  by_cases hi : i < 25
  · rw [lane_eq _ hi]
    simp
  · exact lane_out_of_range _ (by omega)

/-! ### Raising a fault -/

/-- No two causes share a code (R131). -/
theorem cause_code_injective {c c' : Cause} (h : c.code = c'.code) : c = c' := by
  revert h
  cases c <;> cases c' <;> simp [Cause.code]


theorem raiseFault_live {s : State} (h : s.status.fault = false) (c : Cause) (w : Word) :
    s.raiseFault c w = s.faultEntry c w := by
  simp [State.raiseFault, h]

theorem raiseFault_faulted {s : State} (h : s.status.fault = true) (c : Cause) (w : Word) :
    s.raiseFault c w = s := by
  simp [State.raiseFault, h]

/-! ### The frame of a command -/

theorem runCommand_faulted {s : State} (h : s.status.fault = true) (i : Instr) (body : State → Except Cause State) :
    runCommand i body s = .next s := by
  simp [runCommand, h]

theorem runCommand_ok {s s' : State} {i : Instr} {body : State → Except Cause State} (h : s.status.fault = false)
    (hb : body s = .ok s') : runCommand i body s = .next s'.setDone := by
  simp [runCommand, h, hb]

theorem runCommand_error {s : State} {i : Instr} {body : State → Except Cause State} {c : Cause}
    (h : s.status.fault = false) (hb : body s = .error c) :
    runCommand i body s = .next (s.faultEntry c (encode i)) := by
  simp [runCommand, h, hb, raiseFault_live h]

/-- Everything a command can do: nothing on a faulted engine, else its writes and `DONE`, else the fault entry. -/
theorem runCommand_cases {s t : State} {i : Instr} {body : State → Except Cause State}
    (h : runCommand i body s = .next t) :
    (s.status.fault = true ∧ t = s) ∨
    (s.status.fault = false ∧ ∃ s', body s = .ok s' ∧ t = s'.setDone) ∨
    (s.status.fault = false ∧ ∃ c, body s = .error c ∧ t = s.faultEntry c (encode i)) := by
  cases hf : s.status.fault with
  | true =>
    rw [runCommand_faulted hf] at h
    exact .inl ⟨rfl, by injection h with h; exact h.symm⟩
  | false =>
    cases hb : body s with
    | ok s' =>
      rw [runCommand_ok hf hb] at h
      exact .inr (.inl ⟨rfl, s', rfl, by injection h with h; exact h.symm⟩)
    | error c =>
      rw [runCommand_error hf hb] at h
      exact .inr (.inr ⟨rfl, c, rfl, by injection h with h; exact h.symm⟩)

/-! ### Operand checks -/

theorem roundsOperand_legal {r : BitVec 8} (h : r.toNat ≤ 24) : roundsOperand r = .ok ⟨r.toNat, by omega⟩ := by
  simp [roundsOperand, h]

theorem roundsOperand_illegal {r : BitVec 8} (h : 24 < r.toNat) : roundsOperand r = .error .roundsRange := by
  have : ¬r.toNat ≤ 24 := by omega
  simp [roundsOperand, this]

theorem capOperand_legal {c : BitVec 16} (h : c.toNat % 8 = 0 ∧ c.toNat ≤ 1592) :
    capOperand c = .ok ⟨c.toNat, h⟩ := dif_pos h

theorem capOperand_illegal {c : BitVec 16} (h : ¬(c.toNat % 8 = 0 ∧ c.toNat ≤ 1592)) :
    capOperand c = .error .badCapacity := dif_neg h

theorem outbitsOperand_legal {c : Config} {o : BitVec 32} (h8 : o.toNat % 8 = 0) (hm : o.toNat / 8 ≤ c.outMax.val) :
    outbitsOperand c o = .ok o.toNat := by
  have : ¬c.outMax.val < o.toNat / 8 := by omega
  simp [outbitsOperand, h8, this]

theorem outbitsOperand_partial {o : BitVec 32} (c : Config) (h8 : o.toNat % 8 ≠ 0) :
    outbitsOperand c o = .error .outlenNotByteMultiple := if_pos h8

theorem outbitsOperand_long {c : Config} {o : BitVec 32} (h8 : o.toNat % 8 = 0) (hm : c.outMax.val < o.toNat / 8) :
    outbitsOperand c o = .error .outlenTooLong := by
  simp [outbitsOperand, h8, hm]

/-- What a legal output length is: a whole number of bytes that fits `OUT`. -/
theorem outbitsOperand_ok {c : Config} {o : BitVec 32} {d : Nat} (h : outbitsOperand c o = .ok d) :
    d = o.toNat ∧ o.toNat % 8 = 0 ∧ o.toNat / 8 ≤ c.outMax.val := by
  unfold outbitsOperand at h
  split at h
  · cases h
  · split at h
    · cases h
    · injection h with h
      omega

/-- The faults of an output length (R135). -/
theorem outbitsOperand_error {c : Config} {o : BitVec 32} {e : Cause} (h : outbitsOperand c o = .error e) :
    (e = .outlenNotByteMultiple ∧ o.toNat % 8 ≠ 0) ∨
    (e = .outlenTooLong ∧ o.toNat % 8 = 0 ∧ c.outMax.val < o.toNat / 8) := by
  unfold outbitsOperand at h
  split at h
  · injection h with h
    exact .inl ⟨h.symm, ‹_›⟩
  · split at h
    · injection h with h
      exact .inr ⟨h.symm, by omega, ‹_›⟩
    · cases h

theorem encodable_ok {X : Bytes} {u : Unit} (h : encodable X = .ok u) : 8 * X.length < encLimit := by
  by_contra hn
  simp [encodable, Nat.le_of_not_lt hn] at h

theorem encodable_error {X : Bytes} {e : Cause} (h : encodable X = .error e) :
    e = .encodeDomain ∧ encLimit ≤ 8 * X.length := by
  unfold encodable at h
  split at h
  · injection h with h
    exact ⟨h.symm, ‹_›⟩
  · cases h

theorem encodable_short {X : Bytes} (h : 8 * X.length < encLimit) : encodable X = .ok () :=
  if_neg (by omega)

theorem encodable_long {X : Bytes} (h : encLimit ≤ 8 * X.length) : encodable X = .error .encodeDomain := if_pos h

end Sys2Proof.Machine
end

