-- ==== Sys2Proof/Laws/Units.lean ====
section
/-! SUPPORT. The small lemmas of the function units: lanes by column and row, the byte view, the sponge's parts, and
the encodings on their domains. -/

namespace Sys2Proof.Machine

/-! ### Permutation unit -/

theorem laneAt_buildLanes (f : Fin 5 → Fin 5 → Lane) (x y : Fin 5) : laneAt (buildLanes f) x y = f x y := by
  simp only [laneAt, buildLanes, Vector.getElem_ofFn]
  congr 1
  · apply Fin.ext
    show (x.val + 5 * y.val) % 5 = x.val
    omega
  · apply Fin.ext
    show (x.val + 5 * y.val) / 5 = y.val
    omega

/-- Two states are equal when they agree at every column and row (R11). -/
theorem lanes_ext {A B : Lanes} (h : ∀ x y, laneAt A x y = laneAt B x y) : A = B := by
  apply Vector.ext
  intro i hi
  have := h ⟨i % 5, by omega⟩ ⟨i / 5, by omega⟩
  simp only [laneAt] at this
  simpa [show i % 5 + 5 * (i / 5) = i by omega] using this

theorem getElem_stateBytes (A : Lanes) {j : Nat} (h : j < 200) : (stateBytes A)[j] = leByte A[j / 8] (j % 8) := by
  simp [stateBytes]

theorem getElem_stateLanes (SB : StateBytes) {i : Nat} (h : i < 25) : (stateLanes SB)[i] = fromLe64 SB ⟨i, h⟩ := by
  simp [stateLanes]

/-! ### Sponge unit -/

theorem rateBytes_bounds (c : Capacity) : 1 ≤ rateBytes c ∧ rateBytes c ≤ 200 := by
  have := c.2
  unfold rateBytes
  omega

@[simp] theorem rateBytes_cap512 : rateBytes cap512 = 136 := rfl

@[simp] theorem length_zeros (n : Nat) : (zeros n).length = n := by simp [zeros]

@[simp] theorem length_slice (X : Bytes) (a b : Nat) : (slice X a b).length = min (b - a) (X.length - a) := by
  simp [slice]

theorem length_emission (WS : StateBytes) {r : Nat} (h : r ≤ 200) : (emission WS r).length = r := by
  simp [emission, h]

theorem getElem_xorBlock (r : Nat) (Q : Bytes) (WS : StateBytes) (b : Nat) {k : Nat} (h : k < 200) :
    (xorBlock r Q WS b)[k] = if k < r then WS[k] ^^^ Q.getD (b * r + k) 0 else WS[k] := by
  simp [xorBlock]

/-- The loop of R68 reaches `n` bytes when the fuel counts at least the bytes still missing. -/
theorem le_length_squeezeLoop {r n : Nat} (hr : 1 ≤ r) (hr' : r ≤ 200) :
    ∀ (fuel : Nat) (WS : StateBytes) (Z : Bytes), n ≤ Z.length + fuel → n ≤ (squeezeLoop r n fuel WS Z).length := by
  intro fuel
  induction fuel with
  | zero =>
    intro WS Z h
    simpa [squeezeLoop] using h
  | succ fuel ih =>
    intro WS Z h
    unfold squeezeLoop
    split
    · apply ih
      rw [List.length_append, length_emission _ hr']
      omega
    · omega

/-- `len(squeeze(WS, r, n)) = n` (R68). -/
theorem length_squeeze (WS : StateBytes) {r : Nat} (n : Nat) (hr : 1 ≤ r) (hr' : r ≤ 200) :
    (squeeze WS r n).length = n := by
  have := le_length_squeezeLoop hr hr' n WS (emission WS r) (n := n) (by omega)
  simp [squeeze, this]

/-- `len(Z) = d div 8` (R69). -/
theorem length_sponge (P : Bytes) (d : Nat) (c : Capacity) : (sponge P d c).length = d / 8 :=
  length_squeeze _ _ (rateBytes_bounds c).1 (rateBytes_bounds c).2

theorem length_shake256 (X : Bytes) (d : Nat) : (shake256 X d).length = d / 8 := length_sponge ..

/-- A completed cSHAKE256 has the output length asked for. -/
theorem length_cshake256 {X N C Z : Bytes} {d : Nat} (h : cshake256 X d N C = .ok Z) : Z.length = d / 8 := by
  unfold cshake256 at h
  split at h
  · injection h with h
    rw [← h, length_shake256]
  · cases hT : cshakeInput X N C with
    | error c => simp [hT, bind, Except.bind] at h
    | ok T =>
      simp only [hT, bind, Except.bind, pure, Except.pure] at h
      injection h with h
      rw [← h, length_sponge]

/-- A completed KMACXOF256 has the output length asked for. -/
theorem length_kmacxof256 {K X C Z : Bytes} {d : Nat} (h : kmacxof256 K X d C = .ok Z) : Z.length = d / 8 := by
  unfold kmacxof256 at h
  cases hX : kmacInput K X with
  | error c => simp [hX, bind, Except.bind] at h
  | ok Y =>
    simp only [hX, bind, Except.bind] at h
    exact length_cshake256 h

/-! ### Encoding unit -/

theorem leftEncode_ok {x : Nat} (h : x < encLimit) : leftEncode x = .ok (BitVec.ofNat 8 (be x).length :: be x) :=
  if_pos h

theorem leftEncode_error {x : Nat} (h : encLimit ≤ x) : leftEncode x = .error .encodeDomain := if_neg (by omega)

theorem encodeString_ok {X : Bytes} (h : 8 * X.length < encLimit) :
    encodeString X = .ok ((BitVec.ofNat 8 (be (8 * X.length)).length :: be (8 * X.length)) ++ X) := by
  simp [encodeString, leftEncode_ok h, bind, Except.bind, pure, Except.pure]

theorem encodeString_error {X : Bytes} (h : encLimit ≤ 8 * X.length) : encodeString X = .error .encodeDomain := by
  simp [encodeString, leftEncode_error h, bind, Except.bind]

/-- Any 64-bit number is in the domain of the length encodings. -/
theorem lt_encLimit {x : Nat} (h : x < 256 ^ 8) : x < encLimit :=
  lt_of_lt_of_le h (Nat.pow_le_pow_right (by decide) (by decide))

theorem pow_256 (n : Nat) : 256 ^ n = 2 ^ (8 * n) := by
  rw [Nat.pow_mul]

/-- The bound as R4 writes it: `2040 = 8 · 255`. -/
theorem encLimit_eq : encLimit = 2 ^ (8 * 255) := pow_256 255

theorem leftEncode_136 : leftEncode 136 = .ok [0x01, 0x88] := by
  rw [leftEncode_ok (lt_encLimit (by norm_num))]
  rfl

theorem bytepad_136 (X : Bytes) :
    bytepad X 136 = .ok ([0x01, 0x88] ++ X ++ zeros ((136 - (X.length + 2) % 136) % 136)) := by
  simp [bytepad, leftEncode_136, bind, Except.bind, pure, Except.pure]

/-- What cSHAKE256 gives the sponge, for strings whose lengths are in the domain. -/
theorem cshakeInput_ok {N C : Bytes} (X : Bytes) (hN : 8 * N.length < encLimit) (hC : 8 * C.length < encLimit) :
    ∃ n c p, encodeString N = .ok n ∧ encodeString C = .ok c ∧ bytepad (n ++ c) 136 = .ok p ∧
      cshakeInput X N C = .ok (p ++ X ++ [0x04]) := by
  refine ⟨_, _, _, encodeString_ok hN, encodeString_ok hC, bytepad_136 _, ?_⟩
  simp [cshakeInput, encodeString_ok hN, encodeString_ok hC, bytepad_136, bind, Except.bind, pure, Except.pure]

/-- cSHAKE256 of strings whose lengths are in the domain completes. -/
theorem cshake256_ok {N C : Bytes} (X : Bytes) (d : Nat) (hN : 8 * N.length < encLimit)
    (hC : 8 * C.length < encLimit) : ∃ Z, cshake256 X d N C = .ok Z := by
  unfold cshake256
  split
  · exact ⟨_, rfl⟩
  · obtain ⟨n, c, p, -, -, -, hT⟩ := cshakeInput_ok X hN hC
    exact ⟨sponge (p ++ X ++ [0x04]) d cap512, by simp only [hT, bind, Except.bind, pure, Except.pure]⟩

theorem rightEncode_zero : rightEncode 0 = .ok [0x00, 0x01] := by
  rw [rightEncode, if_pos (lt_encLimit (by norm_num))]
  rfl

theorem kmacInput_ok {K : Bytes} (X : Bytes) (hK : 8 * K.length < encLimit) :
    ∃ k p, encodeString K = .ok k ∧ bytepad k 136 = .ok p ∧ kmacInput K X = .ok (p ++ X ++ [0x00, 0x01]) := by
  refine ⟨_, _, encodeString_ok hK, bytepad_136 _, ?_⟩
  simp [kmacInput, encodeString_ok hK, bytepad_136, rightEncode_zero, bind, Except.bind, pure, Except.pure]

/-- KMACXOF256 of a key and a string whose lengths are in the domain completes. -/
theorem kmacxof256_ok {K C : Bytes} (X : Bytes) (d : Nat) (hK : 8 * K.length < encLimit)
    (hC : 8 * C.length < encLimit) : ∃ Z, kmacxof256 K X d C = .ok Z := by
  obtain ⟨k, p, -, -, hX⟩ := kmacInput_ok X hK
  obtain ⟨Z, hZ⟩ := cshake256_ok (p ++ X ++ [0x00, 0x01]) d (N := kmacName) (lt_encLimit (by decide)) hC
  exact ⟨Z, by simp only [kmacxof256, hX, bind, Except.bind, hZ]⟩

end Sys2Proof.Machine
end

