-- ==== Sys2Proof/Laws/Exec.lean ====
section
/-! SUPPORT. Everything a command and a port operation can do, said once: later proofs split on these cases and do not
unfold the meanings again. -/

namespace Sys2Proof.Machine

/-! ### Commands -/

/-- The bytes a completed command leaves in `OUT`: a sequence that fits it. -/
theorem outbitsOperand_fits {c : Config} {o : BitVec 32} {d : Nat} {Z : Bytes} (hd : outbitsOperand c o = .ok d)
    (hZ : Z.length = d / 8) : Z.length ≤ c.outMax.val := by
  obtain ⟨rfl, -, h⟩ := outbitsOperand_ok hd
  omega

/-- The checks and the writes of each command, in one name. -/
def commandBody : Instr → State → Except Cause State
  | .permute rounds => permuteBody rounds
  | .sponge cap outbits => spongeBody cap outbits
  | .shake256 outbits => shake256Body outbits
  | .cshake256 outbits => cshake256Body outbits
  | .kmacxof256 outbits => kmacxof256Body outbits

/-- Every command runs in the shared frame. -/
theorem exec_eq_runCommand (i : Instr) (s : State) : exec i s = runCommand i (commandBody i) s := by
  cases i <;> rfl

/-- The writes of `PERMUTE`. -/
theorem permuteBody_ok {r : BitVec 8} {s s' : State} (h : permuteBody r s = .ok s') :
    ∃ n, roundsOperand r = .ok n ∧ s' = { s with lanes := keccakP s.lanes n } := by
  obtain ⟨n, hn, h⟩ := bind_ok.mp h
  injection h with h
  exact ⟨n, hn, h.symm⟩

/-- The one fault of `PERMUTE`. -/
theorem permuteBody_error {r : BitVec 8} {s : State} {c : Cause} (h : permuteBody r s = .error c) :
    c = .roundsRange ∧ 24 < r.toNat := by
  by_cases hr : r.toNat ≤ 24
  · simp [permuteBody, roundsOperand_legal hr, bind, Except.bind, pure, Except.pure] at h
  · rw [permuteBody, roundsOperand_illegal (by omega)] at h
    injection h with h
    exact ⟨h.symm, by omega⟩

/-- The writes of a sponge-class command: `OUT` becomes a byte sequence that fits it. -/
theorem spongeClassBody_ok {i : Instr} {s s' : State} (hi : i.row ≠ rowPermute) (h : commandBody i s = .ok s') :
    ∃ Z : Bytes, Z.length ≤ s.config.outMax.val ∧ s' = s.setBuf .out Z := by
  cases i with
  | permute r => exact absurd rfl hi
  | sponge cap o =>
    obtain ⟨c, -, h⟩ := bind_ok.mp h
    obtain ⟨d, hd, h⟩ := bind_ok.mp h
    injection h with h
    exact ⟨_, outbitsOperand_fits hd (length_sponge ..), h.symm⟩
  | shake256 o =>
    obtain ⟨d, hd, h⟩ := bind_ok.mp h
    injection h with h
    exact ⟨_, outbitsOperand_fits hd (length_shake256 ..), h.symm⟩
  | cshake256 o =>
    obtain ⟨d, hd, h⟩ := bind_ok.mp h
    obtain ⟨_, -, h⟩ := bind_ok.mp h
    obtain ⟨_, -, h⟩ := bind_ok.mp h
    obtain ⟨Z, hZ, h⟩ := bind_ok.mp h
    injection h with h
    exact ⟨Z, outbitsOperand_fits hd (length_cshake256 hZ), h.symm⟩
  | kmacxof256 o =>
    obtain ⟨d, hd, h⟩ := bind_ok.mp h
    obtain ⟨_, -, h⟩ := bind_ok.mp h
    obtain ⟨_, -, h⟩ := bind_ok.mp h
    obtain ⟨Z, hZ, h⟩ := bind_ok.mp h
    injection h with h
    exact ⟨Z, outbitsOperand_fits hd (length_kmacxof256 hZ), h.symm⟩

/-- The faults of `SPONGE`, in their order (R72). -/
theorem spongeBody_error {cap : BitVec 16} {o : BitVec 32} {s : State} {c : Cause}
    (h : spongeBody cap o s = .error c) :
    (c = .badCapacity ∧ ¬(cap.toNat % 8 = 0 ∧ cap.toNat ≤ 1592)) ∨
    (cap.toNat % 8 = 0 ∧ cap.toNat ≤ 1592 ∧ outbitsOperand s.config o = .error c) := by
  by_cases hc : cap.toNat % 8 = 0 ∧ cap.toNat ≤ 1592
  · refine .inr ⟨hc.1, hc.2, ?_⟩
    rcases bind_error.mp h with h | ⟨k, -, h⟩
    · rw [capOperand_legal hc] at h
      cases h
    · rcases bind_error.mp h with h | ⟨d, -, h⟩
      · exact h
      · cases h
  · rw [spongeBody, capOperand_illegal hc] at h
    injection h with h
    exact .inl ⟨h.symm, hc⟩

/-- The faults of `SHAKE256` (R86). -/
theorem shake256Body_error {o : BitVec 32} {s : State} {c : Cause} (h : shake256Body o s = .error c) :
    outbitsOperand s.config o = .error c := by
  rcases bind_error.mp h with h | ⟨d, -, h⟩
  · exact h
  · cases h

/-- The faults of `CSHAKE256`, in their order (R88). -/
theorem cshake256Body_error {o : BitVec 32} {s : State} {c : Cause} (h : cshake256Body o s = .error c) :
    outbitsOperand s.config o = .error c ∨
    (c = .encodeDomain ∧ (∃ d, outbitsOperand s.config o = .ok d) ∧
      (encLimit ≤ 8 * s.mem.name.length ∨ encLimit ≤ 8 * s.mem.cust.length)) := by
  rcases bind_error.mp h with h | ⟨d, hd, h⟩
  · exact .inl h
  refine .inr ?_
  rcases bind_error.mp h with h | ⟨u, hn, h⟩
  · exact ⟨(encodable_error h).1, ⟨d, hd⟩, .inl (encodable_error h).2⟩
  rcases bind_error.mp h with h | ⟨v, hc, h⟩
  · exact ⟨(encodable_error h).1, ⟨d, hd⟩, .inr (encodable_error h).2⟩
  rcases bind_error.mp h with h | ⟨Z, -, h⟩
  · obtain ⟨Z, hZ⟩ := cshake256_ok s.mem.inp d (encodable_ok hn) (encodable_ok hc)
    rw [hZ] at h
    cases h
  · cases h

/-- The faults of `KMACXOF256`, in their order (R93). -/
theorem kmacxof256Body_error {o : BitVec 32} {s : State} {c : Cause} (h : kmacxof256Body o s = .error c) :
    outbitsOperand s.config o = .error c ∨
    (c = .encodeDomain ∧ (∃ d, outbitsOperand s.config o = .ok d) ∧
      (encLimit ≤ 8 * s.mem.key.length ∨ encLimit ≤ 8 * s.mem.cust.length)) := by
  rcases bind_error.mp h with h | ⟨d, hd, h⟩
  · exact .inl h
  refine .inr ?_
  rcases bind_error.mp h with h | ⟨u, hn, h⟩
  · exact ⟨(encodable_error h).1, ⟨d, hd⟩, .inl (encodable_error h).2⟩
  rcases bind_error.mp h with h | ⟨v, hc, h⟩
  · exact ⟨(encodable_error h).1, ⟨d, hd⟩, .inr (encodable_error h).2⟩
  rcases bind_error.mp h with h | ⟨Z, -, h⟩
  · obtain ⟨Z, hZ⟩ := kmacxof256_ok s.mem.inp d (encodable_ok hn) (encodable_ok hc)
    rw [hZ] at h
    cases h
  · cases h

/-- Everything a command can do, the writes and the faults still in the terms of its body. -/
theorem exec_cases {i : Instr} {s t : State} (h : exec i s = .next t) :
    (s.status.fault = true ∧ t = s) ∨
    (s.status.fault = false ∧ ∃ s', commandBody i s = .ok s' ∧ t = s'.setDone) ∨
    (s.status.fault = false ∧ ∃ c, commandBody i s = .error c ∧ t = s.faultEntry c (encode i)) :=
  runCommand_cases (exec_eq_runCommand i s ▸ h)

/-- A command on a faulted engine does nothing (R110). -/
theorem exec_faulted {s : State} (h : s.status.fault = true) (i : Instr) : exec i s = .next s := by
  rw [exec_eq_runCommand, runCommand_faulted h]

/-- Every command answers a next state. -/
theorem exec_total (i : Instr) (s : State) : ∃ t, exec i s = .next t := by
  rw [exec_eq_runCommand]
  unfold runCommand
  split
  · exact ⟨_, rfl⟩
  · split <;> exact ⟨_, rfl⟩

/-! ### Port operations -/

/-- Everything an issue can do on a live engine (R105). -/
theorem portHissue_cases {w : Word} {s t : State} (h : portHissue w s = .next t) :
    (s.status.fault = true ∧ t = s) ∨
    (s.status.fault = false ∧ ∃ i, decode w = .ok i ∧ exec i s.clearDone = .next t) ∨
    (s.status.fault = false ∧ ∃ e, decode w = .error e ∧ t = s.faultEntry .illegalCommand w) := by
  unfold portHissue at h
  cases hf : s.status.fault with
  | true =>
    rw [if_pos hf] at h
    injection h with h
    exact .inl ⟨rfl, h.symm⟩
  | false =>
    rw [if_neg (by simp [hf])] at h
    cases hd : decode w with
    | ok i =>
      rw [hd] at h
      exact .inr (.inl ⟨rfl, i, rfl, h⟩)
    | error e =>
      rw [hd] at h
      simp only [raiseFault_live (s := s.clearDone) (by simpa using hf), faultEntry_clearDone] at h
      injection h with h
      exact .inr (.inr ⟨rfl, e, rfl, h.symm⟩)

/-- Everything a buffer write can do (R102, R110, R138). -/
theorem portHwrbuf_cases (b : Option BufName) (X : Bytes) (s : State) :
    (s.status.fault = true ∧ portHwrbuf b X s = s) ∨
    (s.status.fault = false ∧ (b = none ∨ b = some .out) ∧
      portHwrbuf b X s = s.faultEntry .badPortIndex (portFaultWord opHwrbuf (bufNumber b) X.length)) ∨
    (s.status.fault = false ∧ ∃ n, b = some n ∧ n ≠ .out ∧ withinLimit X.length s.config.bufMax = true ∧
      portHwrbuf b X s = s.setBuf n X) ∨
    (s.status.fault = false ∧ ∃ n, b = some n ∧ n ≠ .out ∧ withinLimit X.length s.config.bufMax = false ∧
      portHwrbuf b X s = s.faultEntry .bufferOverflow (portFaultWord opHwrbuf (bufNumber b) X.length)) := by
  unfold portHwrbuf
  cases hf : s.status.fault with
  | true => exact .inl ⟨rfl, if_pos rfl⟩
  | false =>
    rw [if_neg (by simp)]
    refine .inr ?_
    cases b with
    | none => exact .inl ⟨rfl, .inl rfl, raiseFault_live hf _ _⟩
    | some n =>
      cases hw : withinLimit X.length s.config.bufMax with
      | true => cases n <;> simp [bufLimit, hw, raiseFault_live hf]
      | false => cases n <;> simp [bufLimit, hw, raiseFault_live hf]

/-- Everything a lane write can do (R103, R110, R138). -/
theorem portHwrlane_cases (i : Nat) (v : Lane) (s : State) :
    (s.status.fault = true ∧ portHwrlane i v s = s) ∨
    (s.status.fault = false ∧ 24 < i ∧
      portHwrlane i v s = s.faultEntry .badPortIndex (portFaultWord opHwrlane 0 i)) ∨
    (s.status.fault = false ∧ i ≤ 24 ∧ portHwrlane i v s = s.setLane i v) := by
  unfold portHwrlane
  cases hf : s.status.fault with
  | true => exact .inl ⟨rfl, if_pos rfl⟩
  | false =>
    rw [if_neg (by simp)]
    by_cases hi : 24 < i
    · exact .inr (.inl ⟨rfl, hi, by rw [if_pos hi, raiseFault_live hf]⟩)
    · exact .inr (.inr ⟨rfl, by omega, if_neg hi⟩)

/-- Everything a lane read can do (R104, R110, R138). -/
theorem portHrdlane_cases (i : Nat) (s : State) :
    (s.status.fault = true ∧ portHrdlane i s = s.giveHost (.u64 0)) ∨
    (s.status.fault = false ∧ 24 < i ∧ portHrdlane i s =
      (s.faultEntry .badPortIndex (portFaultWord opHrdlane 0 i)).giveHost (.u64 0)) ∨
    (s.status.fault = false ∧ i ≤ 24 ∧ portHrdlane i s = s.giveHost (.u64 (s.lane i))) := by
  unfold portHrdlane
  cases hf : s.status.fault with
  | true => exact .inl ⟨rfl, if_pos rfl⟩
  | false =>
    rw [if_neg (by simp)]
    by_cases hi : 24 < i
    · exact .inr (.inl ⟨rfl, hi, by rw [if_pos hi, raiseFault_live hf]⟩)
    · exact .inr (.inr ⟨rfl, by omega, if_neg hi⟩)

/-! ### Steps -/

theorem step_idle {s : State} (h : s.port = []) : step s = .next s := by
  simp [step, performNext, h]

theorem step_port {s : State} {op : PortOp} {rest : List PortOp} (h : s.port = op :: rest) :
    step s = performPort op { s with port := rest } := by
  simp [step, performNext, h]

end Sys2Proof.Machine
end

