-- ==== Sys2Proof/Laws/PerInstr.lean ====
section
/-! SUPPORT. Statements about every instruction, one lemma per constructor. The family `SelectedByOwnRow` says that
the word of an instruction is selected by the instruction's own row of the opcode table (R35). -/

namespace Sys2Proof.Laws.SelectedByOwnRow

def Statement (i : Instr) : Prop := i.row.selects (encode i) = true

theorem permute (rounds : BitVec 8) : Statement (.permute rounds) :=
  (selects_permute _).mpr ⟨opField_formatK .., capField_formatK .., outbitsField_formatK ..⟩

theorem sponge (cap : BitVec 16) (outbits : BitVec 32) : Statement (.sponge cap outbits) :=
  (selects_sponge _).mpr ⟨opField_formatK .., roundsField_formatK ..⟩

theorem shake256 (outbits : BitVec 32) : Statement (.shake256 outbits) :=
  (selects_shake256 _).mpr ⟨opField_formatK .., roundsField_formatK .., capField_formatK ..⟩

theorem cshake256 (outbits : BitVec 32) : Statement (.cshake256 outbits) :=
  (selects_cshake256 _).mpr ⟨opField_formatK .., roundsField_formatK .., capField_formatK ..⟩

theorem kmacxof256 (outbits : BitVec 32) : Statement (.kmacxof256 outbits) :=
  (selects_kmacxof256 _).mpr ⟨opField_formatK .., roundsField_formatK .., capField_formatK ..⟩

end Sys2Proof.Laws.SelectedByOwnRow
end

