-- ==== Sys2Proof/Tests/Slice0.lean ====
section
/-! SUPPORT. The model's own tests. Expected values come from the spec: the examples of its rules and the vectors of
`95_test_vectors.md` (named V-…). Then one witness for the hypotheses of every obligation that has some. -/

namespace Sys2Proof.Tests

open Sys2Proof Sys2Proof.Machine Sys2Proof.Claims

/-! ### Small states -/

/-- The state a step answers. -/
def after : Host.Outcome State Fault Refusal → State
  | .next t => t
  | _ => State.reset

/-- The state after issuing a word right after reset. -/
def issued (w : Nat) : State := after (step (State.reset.withFetchWord 64 w))

/-- `A[i] = i + 1`, the state `P` of the vectors. -/
def lanesP : Lanes := Vector.ofFn fun i : Fin 25 => BitVec.ofNat 64 (i.val + 1)

/-- A live engine with small limits and something in every lane and buffer. -/
def live : State :=
  { State.resetWith { bufMax := some 16, outMax := 64 } with
    lanes := lanesP
    mem := { inp := [0x61, 0x62, 0x63], key := [0x01], name := [0x02], cust := [0x44], out := [0xEE, 0xFF] } }

/-- The same engine after `PERMUTE 25`. -/
def faulted : State := live.faultEntry .roundsRange 0x0119000000000000

/-- The live engine with the host's next operations. -/
def asked (ops : List PortOp) : State := { live with port := ops }

/-- The live engine without a limit on its input buffers. -/
def unbounded : State := { live with config := .suggested }

/-- There are byte sequences of every length; those near `2^2037` bytes are never evaluated. -/
theorem exists_length (n : Nat) : ∃ X : Bytes, X.length = n := ⟨List.replicate n 0x00, List.length_replicate ..⟩

theorem small {n : Nat} (h : n < 2 ^ 10) : n < 2 ^ 2040 :=
  lt_of_lt_of_le h (Nat.pow_le_pow_right (by decide) (by decide))

theorem small_bytes {n : Nat} (h : n < 2 ^ 10) : n < 2 ^ 2037 :=
  lt_of_lt_of_le h (Nat.pow_le_pow_right (by decide) (by decide))

theorem pow_split : 2 ^ 2040 = 8 * 2 ^ 2037 := by
  rw [show 2040 = 3 + 2037 from rfl, Nat.pow_add]

/-- The greatest byte length below `2^2037`, in bytes and in bits. -/
theorem just_short {n : Nat} (h : n = 2 ^ 2037 - 1) : 0 < n ∧ n < 2 ^ 2037 ∧ 8 * n < 2 ^ 2040 := by
  rw [pow_split, h]
  have : 100 < 2 ^ 2037 := small_bytes (by decide)
  generalize 2 ^ 2037 = k at this
  omega

/-! ### Well-formedness: one ill-formed command for each check -/

theorem test_wf_rounds : (Instr.permute 25).wellFormed = false ∧ (Instr.permute 24).wellFormed = true := by decide

theorem test_wf_cap_multiple :
    (Instr.sponge 513 8).wellFormed = false ∧ (Instr.sponge 1592 8).wellFormed = true := by decide

theorem test_wf_cap_bound : (Instr.sponge 1600 8).wellFormed = false := by decide

theorem test_wf_sponge_outbits : (Instr.sponge 512 7).wellFormed = false := by decide

theorem test_wf_shake256_outbits : (Instr.shake256 7).wellFormed = false := by decide

theorem test_wf_cshake256_outbits : (Instr.cshake256 12).wellFormed = false := by decide

theorem test_wf_kmacxof256_outbits : (Instr.kmacxof256 0xFFFFFFFF).wellFormed = false := by decide

/-! ### Decoding: words written out bit by bit from R33 (`op`, `rounds`, `cap`, `outbits`) -/

theorem test_decode_permute :
    decode 0b0000000100011000000000000000000000000000000000000000000000000000 = .ok (.permute 24) := by decide

theorem test_decode_sponge :
    decode 0b0000001000000000000000100000000000000000000000000000000100000000 = .ok (.sponge 512 256) := by decide

theorem test_decode_shake256 :
    decode 0b0000001100000000000000000000000000000000000000000000000100000000 = .ok (.shake256 256) := by decide

theorem test_decode_cshake256 :
    decode 0b0000010000000000000000000000000000000000000000000000001000000000 = .ok (.cshake256 512) := by decide

theorem test_decode_kmacxof256 :
    decode 0b0000010100000000000000000000000011111111111111111111111111111000 = .ok (.kmacxof256 4294967288) := by decide

/-- The words of R38. -/
theorem test_encode : encode (.permute 24) = 0x0118000000000000 ∧ encode (.sponge 512 256) = 0x0200020000000100 ∧
    encode (.shake256 256) = 0x0300000000000100 ∧ encode (.cshake256 512) = 0x0400000000000200 ∧
    encode (.kmacxof256 1024) = 0x0500000000000400 := by decide

/-- R36; V-F1 to V-F4, V-F13, V-F14. -/
theorem test_decode_illegal : decode 0x0600000000000000 = .error .unassignedOp ∧
    decode 0x0300000100000100 = .error .unusedFieldNotZero ∧
    decode 0x0401000000000100 = .error .unusedFieldNotZero := by decide

theorem test_decodeTableWord : decodeTableWord 64 0x0118000000000000 = some (.permute 24) ∧
    decodeTableWord 64 0 = none := by decide

/-! ### Permutation unit -/

/-- V-P0 (R50). -/
theorem test_rotl64 : rotl64 0x8000000000000001 1 = 0x0000000000000003 ∧ rotl64 7 44 = 0x0000700000000000 := by decide

/-- V-P2 (R51): lane 0 of `theta(P)`. -/
theorem test_theta : (theta lanesP)[0] = 0x10 := by decide

/-- V-P3 (R52): `T[10] = 4`, `T[1] = rotl64(7, 44)`. -/
theorem test_rhopi : (rhopi lanesP)[10] = 4 ∧ (rhopi lanesP)[1] = 0x0000700000000000 := by decide

/-- The two tables of R53 where they begin, in the middle and where they end. -/
theorem test_walk_tables : rotc.take 5 = [1, 3, 6, 10, 15] ∧ rotc[12]? = some 27 ∧ rotc.drop 20 = [39, 61, 20, 44] ∧
    piln.take 5 = [10, 7, 11, 17, 18] ∧ piln.drop 21 = [9, 6, 1] := by decide

/-- V-P4 (R55): row 0 of `chi(P)`. -/
theorem test_chi : (chi lanesP)[0] = 0 ∧ (chi lanesP)[1] = 6 ∧ (chi lanesP)[2] = 2 ∧ (chi lanesP)[3] = 4 ∧
    (chi lanesP)[4] = 7 := by decide

/-- V-P1 (R60): lane 0 of Keccak-f of the zero state. -/
theorem test_keccakF : (keccakF (Vector.replicate 25 0))[0] = 0xF1258F7940E1DDE7 := by decide +kernel

/-! ### Sponge and encoding units -/

/-- The examples of R66 with `r = 8`. -/
theorem test_pad : pad [0xAA, 0xAA, 0xAA] 8 = [0xAA, 0xAA, 0xAA, 0x00, 0x00, 0x00, 0x00, 0x80] ∧
    pad (List.replicate 7 0xAA) 8 = List.replicate 7 0xAA ++ [0x80] ∧
    pad (List.replicate 8 0xAA) 8 = List.replicate 8 0xAA := by decide

/-- The examples of R76 and R77. -/
theorem test_length_encodings : leftEncode 0 = .ok [0x01, 0x00] ∧ leftEncode 136 = .ok [0x01, 0x88] ∧
    leftEncode 2040 = .ok [0x02, 0x07, 0xF8] ∧ leftEncode 65536 = .ok [0x03, 0x01, 0x00, 0x00] ∧
    rightEncode 0 = .ok [0x00, 0x01] ∧ rightEncode 512 = .ok [0x02, 0x00, 0x02] := by decide

/-- The examples of R78. -/
theorem test_encodeString : encodeString [] = .ok [0x01, 0x00] ∧
    encodeString kmacName = .ok [0x01, 0x20, 0x4B, 0x4D, 0x41, 0x43] := by decide

/-- The examples of R79 with `w = 4`. -/
theorem test_bytepad : bytepad [0xAA, 0xBB] 4 = .ok [0x01, 0x04, 0xAA, 0xBB] ∧
    bytepad [0xAA, 0xBB, 0xCC] 4 = .ok [0x01, 0x04, 0xAA, 0xBB, 0xCC, 0x00, 0x00, 0x00] := by decide

/-! ### Commands, one step each -/

/-- V-P6 through the port: `PERMUTE 1` after reset leaves `RC[23]` in lane 0, and sets `DONE`. -/
theorem test_permute_one_round : (issued 0x0101000000000000).lane 0 = 0x8000000080008008 ∧
    (issued 0x0101000000000000).lane 24 = 0 ∧ (issued 0x0101000000000000).status.word = 0x0001 := by decide +kernel

/-- V-F5: `PERMUTE 25`. -/
theorem test_permute_25 : (issued 0x0119000000000000).status.word = 0x0202 ∧
    (issued 0x0119000000000000).fcmd = 0x0119000000000000 := by decide

/-- V-G1 (R70): an empty `IN` squeezes the zero state. -/
theorem test_sponge_empty : (issued 0x0200020000000040).mem.out = List.replicate 8 0x00 := by decide +kernel

/-- V-F8, V-F9: a bad capacity wins over a bad output length. -/
theorem test_sponge_capacity : (issued 0x0200020100000007).status.word = 0x0302 ∧
    (issued 0x0200064000000008).status.word = 0x0302 := by decide

/-- V-S1: the first byte of SHAKE256 of the empty message fixes the byte order and the initial state. -/
theorem test_shake256_empty : (issued 0x0300000000000008).mem.out = [0x46] := by decide +kernel

/-- V-F16, V-F17: with `OUT_MAX = 64`, 65 bytes are too long. -/
theorem test_shake256_too_long : (after (exec (.shake256 520) live)).status.word = 0x0502 ∧
    (after (exec (.shake256 520) live)).mem.out = [] := by decide

/-- `outbits = 0` gives an empty `OUT` and `DONE` (R88). -/
theorem test_cshake256_no_output : (after (exec (.cshake256 0) live)).mem.out = [] ∧
    (after (exec (.cshake256 0) live)).status.word = 0x0001 := by decide

/-- The bytes the cSHAKE256 example of R88 absorbs: 136 bytes of prefix, then the input and `04`. -/
theorem test_cshakeInput : (cshakeInput [0x00, 0x01, 0x02, 0x03] [] [0x45]).map (·.take 6) =
    .ok [0x01, 0x88, 0x01, 0x00, 0x01, 0x08] ∧
    (cshakeInput [0x00, 0x01, 0x02, 0x03] [] [0x45]).map (·.drop 136) = .ok [0x00, 0x01, 0x02, 0x03, 0x04] := by
  decide

/-- V-F15: the output length of `KMACXOF256` is checked first. -/
theorem test_kmacxof256_partial : (issued 0x05000000FFFFFFFF).status.word = 0x0402 ∧
    (issued 0x05000000FFFFFFFF).fcmd = 0x05000000FFFFFFFF := by decide

/-- R95: for an empty key and input the first argument of cSHAKE is `01 88 01 00`, 132 zero bytes, `00 01`. -/
theorem test_kmacInput :
    kmacInput [] [] = .ok ([0x01, 0x88, 0x01, 0x00] ++ List.replicate 132 0x00 ++ [0x00, 0x01]) := by decide

/-! ### Port faults -/

/-- V-F18 to V-F21. -/
theorem test_port_faults :
    (portHwrbuf (some .key) (List.replicate 17 0) live).fcmd = 0xFF01010000000011 ∧
    (portHwrlane 25 1 live).fcmd = 0xFF02000000000019 ∧ (portHrdlane 31 live).fcmd = 0xFF0300000000001F ∧
    (portHwrbuf (some .out) [0x61, 0x62] live).fcmd = 0xFF01040000000002 := by decide

theorem test_port_fault_status : (portHwrbuf (some .key) (List.replicate 17 0) live).status.word = 0x0802 ∧
    (portHwrlane 25 1 live).status.word = 0x0902 ∧ (portHrdlane 31 live).returned = [.u64 0] := by decide

/-! ### Host layer -/

/-- R39: `MAC` writes every buffer its command reads. -/
theorem test_assemble_mac : (AsmLine.mac [0x61] [0x70]).assemble =
    some [.hwrbuf (some .key) [0x70], .hwrbuf (some .inp) [0x61], .hwrbuf (some .cust) [0x54],
      .hissue 0x0500000000000200, .hrdout] := by decide

/-- R123, with the bytes of `"KMAC"`. -/
theorem test_hex : toHex kmacName = "4B4D4143".toList ∧ fromHex "4B 4D\n41 43".toList = some kmacName ∧
    fromHex "4".toList = none := by decide

/-! ### Witnesses: the hypotheses of each obligation can be met, clause by clause -/

theorem witness_EncodeOfDecodeIsWord : decode 0x05000000FFFFFFFF = .ok (.kmacxof256 0xFFFFFFFF) := by decide

theorem witness_RowSelectionIsMaskAndMatch : rowKmacxof256 ∈ opRows ∧
    (0x0500000000000400 : Word) &&& rowKmacxof256.mask = rowKmacxof256.matchVal ∧
    decode 0x0500000000000400 = .ok (.kmacxof256 1024) ∧ (Instr.kmacxof256 1024).row ≠ rowPermute ∧
    (Instr.kmacxof256 1024).row ≠ rowSponge ∧ decode 0x01FF000000000000 = .ok (.permute 255) := by decide

theorem witness_IllegalWordFaults : live.status.fault = false ∧ live.status.cause = 0 := by decide

theorem witness_RotateLeftMovesBits : 128 % 64 = 0 ∧ 127 % 64 ≠ 0 ∧ 63 < 64 := by decide

/-- Lanes 0 and 20 of one column hold the same value: every parity is zero, the state is not. -/
theorem witness_ThetaAddsColumnParities :
    let A : Lanes := Vector.ofFn fun i : Fin 25 => if i.val % 20 = 0 then 5 else 0
    A ≠ Vector.replicate 25 0 ∧
      ∀ i : Fin 5, A[i.val] ^^^ A[i.val + 5] ^^^ A[i.val + 10] ^^^ A[i.val + 15] ^^^ A[i.val + 20] = 0 := by
  decide

theorem witness_RhoPiRotatesAndMoves : ((4, 4) : Fin 5 × Fin 5) ≠ (0, 0) := by decide

theorem witness_IotaAddsRoundConstants : (24 : Fin 25) ≠ 0 ∧ ∀ j : Fin 7, (62 : Fin 64).val ≠ 2 ^ j.val - 1 := by
  decide

theorem witness_PadFillsLastBlock : 1 ≤ 1 ∧ ([0x61] : Bytes).length % 1 = 0 ∧ ([0x61] : Bytes).length % 136 ≠ 0 := by
  decide

theorem witness_AbsorbXorsBlockAndPermutes : 1 ≤ 20 ∧ 20 ≤ 200 ∧ (List.replicate 40 1 : Bytes).length % 20 = 0 ∧
    (List.replicate 20 2 : Bytes).length = 20 := by decide

theorem witness_SqueezeBytesOfPermutedStates : 1 ≤ 1 ∧ 1 ≤ 200 ∧ 8 < 9 := by decide

theorem witness_SpongeOutputsArePrefixes : 8 % 8 = 0 ∧ 1096 % 8 = 0 ∧ 8 ≤ 1096 := by decide

theorem witness_BigEndianIsMinimal : 0 < 255 ∧ 255 < 2 ^ 2040 ∧ 0 < 2 ^ 2040 - 1 ∧ 2 ^ 2040 - 1 < 2 ^ 2040 := by
  have h : 255 < 2 ^ 2040 := small (by decide)
  generalize 2 ^ 2040 = n at h
  omega

theorem witness_LengthEncodingsOnDomain : 2 ^ 2040 - 1 < 2 ^ 2040 ∧ 2 ^ 2040 ≤ 2 ^ 2040 :=
  ⟨Nat.sub_lt (Nat.two_pow_pos _) (by decide), le_refl _⟩

theorem witness_EncodeStringParsesBack : (∃ X : Bytes, X.length = 2 ^ 2037 - 1 ∧ X.length < 2 ^ 2037) ∧ leftEncode 256 = .ok [0x02, 0x01, 0x00] ∧
    ([0x02, 0x01, 0x00] : Bytes) <+: [0x02, 0x01, 0x00] ∧ (List.replicate 31 0 : Bytes).length ≤ 31 ∧
    (List.replicate 32 0 : Bytes).length = 32 :=
  ⟨(exists_length _).imp fun _ h => ⟨h, (just_short h).2.1⟩, by decide, List.prefix_refl _, by decide, by decide⟩

theorem witness_BytepadFillsLeastMultiple : 1 ≤ 1 ∧ 1 < 2 ^ 2040 ∧ 1 ≤ 2 ^ 2040 - 1 ∧ 2 ^ 2040 - 1 < 2 ^ 2040 := by
  have h : 1 < 2 ^ 2040 := small (by decide)
  generalize 2 ^ 2040 = n at h
  omega

theorem witness_ShakeAbsorbsSuffixAndPadding : (List.replicate 135 0 : Bytes).length % 136 = 135 ∧
    (List.replicate 136 0 : Bytes).length % 136 ≠ 135 := by simp

theorem witness_CshakeBuildsItsInput :
    (∃ N C : Bytes, (N ≠ [] ∨ C ≠ []) ∧ N = [] ∧ N.length < 2 ^ 2037 ∧ C.length < 2 ^ 2037) ∧
    ∃ N C : Bytes, 2 ^ 2037 ≤ N.length ∨ 2 ^ 2037 ≤ C.length := by
  obtain ⟨C, hC⟩ := exists_length (2 ^ 2037 - 1)
  obtain ⟨D, hD⟩ := exists_length (2 ^ 2037)
  have hC := just_short hC
  exact ⟨⟨[], C, .inr (List.ne_nil_of_length_pos hC.1), rfl, small_bytes (by decide), hC.2.1⟩, [], D,
    .inr (le_of_eq hD.symm)⟩

theorem witness_CshakeWholeBlockHasNoFinalBit :
    (∃ T, cshakeInput (List.replicate 135 0) [] [0x44] = .ok T) ∧ (List.replicate 135 0 : Bytes).length % 136 = 135 ∧
    ∃ T, cshakeInput (List.replicate 136 0) [] [0x44] = .ok T := by
  have h := fun X => cshakeInput_ok X (N := []) (C := [0x44]) (lt_encLimit (by decide)) (lt_encLimit (by decide))
  obtain ⟨n, c, p, -, -, -, h₁⟩ := h (List.replicate 135 0)
  obtain ⟨n', c', p', -, -, -, h₂⟩ := h (List.replicate 136 0)
  exact ⟨⟨_, h₁⟩, by simp, _, h₂⟩

theorem witness_KmacAbsorbedLayout : (∃ K : Bytes, K.length = 2 ^ 2037 - 1 ∧ K.length < 2 ^ 2037) ∧
    ([] : Bytes).length < 2 ^ 2037 :=
  ⟨(exists_length _).imp fun _ h => ⟨h, (just_short h).2.1⟩, small_bytes (by decide)⟩

theorem witness_PermuteCompletes : live.status.fault = false ∧ (24 : BitVec 8).toNat ≤ 24 ∧
    (0 : BitVec 8).toNat ≤ 24 ∧ 24 < (25 : BitVec 8).toNat ∧ 24 < (255 : BitVec 8).toNat := by decide

theorem witness_SpongeCompletes : live.status.fault = false ∧
    (0 : BitVec 16).toNat % 8 = 0 ∧ (1592 : BitVec 16).toNat % 8 = 0 ∧ (1592 : BitVec 16).toNat ≤ 1592 ∧
    (512 : BitVec 32).toNat % 8 = 0 ∧ (512 : BitVec 32).toNat / 8 ≤ live.config.outMax.val := by decide

theorem witness_Shake256Completes : live.status.fault = false ∧ (512 : BitVec 32).toNat % 8 = 0 ∧
    (512 : BitVec 32).toNat / 8 ≤ live.config.outMax.val ∧ unbounded.status.fault = false ∧
    (0xFFFFFFF8 : BitVec 32).toNat % 8 = 0 ∧ (0xFFFFFFF8 : BitVec 32).toNat / 8 ≤ unbounded.config.outMax.val := by
  decide

theorem witness_Cshake256Completes : live.status.fault = false ∧ (512 : BitVec 32).toNat % 8 = 0 ∧
    (512 : BitVec 32).toNat / 8 ≤ live.config.outMax.val ∧ 8 * live.mem.name.length < 2 ^ 2040 ∧
    8 * live.mem.cust.length < 2 ^ 2040 ∧ ∃ X, 8 * (live.setBuf .name X).mem.name.length = 8 * (2 ^ 2037 - 1) ∧
      8 * (live.setBuf .name X).mem.name.length < 2 ^ 2040 :=
  ⟨by decide, by decide, by decide, small (by decide), small (by decide),
    (exists_length _).imp fun _ h => ⟨congrArg _ h, (just_short h).2.2⟩⟩

theorem witness_Kmacxof256Completes : live.status.fault = false ∧ (0 : BitVec 32).toNat % 8 = 0 ∧
    (0 : BitVec 32).toNat / 8 ≤ live.config.outMax.val ∧ 8 * live.mem.key.length < 2 ^ 2040 ∧
    8 * live.mem.cust.length < 2 ^ 2040 ∧ ∃ X, 8 * (live.setBuf .key X).mem.key.length = 8 * (2 ^ 2037 - 1) ∧
      8 * (live.setBuf .key X).mem.key.length < 2 ^ 2040 :=
  ⟨by decide, by decide, by decide, small (by decide), small (by decide),
    (exists_length _).imp fun _ h => ⟨congrArg _ h, (just_short h).2.2⟩⟩

/-- Completing and faulting. -/
theorem witness_PermuteFrame :
    (∃ t, exec (.permute 0) live = .next t ∧ t.status.fault = live.status.fault) ∧
    ∃ t, exec (.permute 25) live = .next t ∧ t.status.fault ≠ live.status.fault :=
  ⟨⟨_, rfl, by decide⟩, ⟨_, rfl, by decide⟩⟩

theorem witness_SpongeClassFrame : spongeClass (.cshake256 0) ∧ spongeClass (.sponge 513 8) ∧
    (∃ t, exec (.sponge 512 0) live = .next t ∧ t.status.fault = live.status.fault) ∧
    ∃ t, exec (.sponge 513 8) live = .next t ∧ t.status.fault ≠ live.status.fault :=
  ⟨rfl, rfl, ⟨_, rfl, rfl⟩, ⟨_, rfl, by decide⟩⟩

/-- Two engines that differ in the lanes, in `OUT` and in two buffers `SHAKE256` does not read. -/
theorem witness_UnreadStateHasNoInfluence :
    let t := { live with lanes := Vector.replicate 25 9, mem := { live.mem with out := [], key := [0x07], cust := [] } }
    spongeClass (.shake256 8) ∧ live.status.fault = false ∧ t.status.fault = false ∧ live.config = t.config ∧
      (∀ b ∈ buffersRead (.shake256 8), live.mem.get b = t.mem.get b) ∧ (∃ s', exec (.shake256 8) live = .next s') ∧
      ∃ t', exec (.shake256 8) t = .next t' :=
  ⟨rfl, rfl, rfl, rfl, by decide, exec_total .., exec_total ..⟩

theorem witness_FaultEntryZeroisesAndRecords : live.status.fault = false ∧
    ∃ t, exec (.permute 25) live = .next t ∧ t.status.fault = true := ⟨rfl, _, rfl, by decide⟩

theorem witness_FirstFaultIsReported : live.status.fault = false := rfl

theorem witness_BadCapacityFault : live.status.fault = false ∧ (Instr.shake256 8).row ≠ rowSponge ∧
    ∃ t, exec (.shake256 8) live = .next t := ⟨rfl, by decide, exec_total ..⟩

/-- One byte too many, the last length that fits, and a bad length; with the suggested `OUT_MAX` too. -/
theorem witness_OutputLengthFaults : live.status.fault = false ∧ outbitsOf (.shake256 520) = some 520 ∧
    outbitsOf (.sponge 512 7) = some 7 ∧ (7 : BitVec 32).toNat % 8 ≠ 0 ∧ (520 : BitVec 32).toNat % 8 = 0 ∧
    live.config.outMax.val < (520 : BitVec 32).toNat / 8 ∧ (∀ c o', Instr.sponge 512 7 = .sponge c o' →
      c.toNat % 8 = 0 ∧ c.toNat ≤ 1592) ∧ (∀ c o', Instr.shake256 520 = .sponge c o' → c.toNat % 8 = 0 ∧ c.toNat ≤ 1592) ∧
    unbounded.status.fault = false ∧ unbounded.config.outMax.val = 536870911 ∧
    ∃ t, exec (.shake256 0xFFFFFFF8) unbounded = .next t := by
  refine ⟨rfl, rfl, rfl, by decide, by decide, by decide, ?_, ?_, rfl, rfl, exec_total ..⟩
  · intro c o' h
    cases h
    decide
  · intro c o' h
    cases h

/-- A key of `2^2037` bytes and one a byte shorter; and an engine whose buffers are bounded. -/
theorem witness_EncodeDomainFault :
    spongeClass (.kmacxof256 8) ∧ (Instr.kmacxof256 8).wellFormed = true ∧ outputFits (.kmacxof256 8) live.config ∧
    (∃ X, (live.setBuf .key X).status.fault = false ∧
      ∃ b ∈ buffersEncoded (.kmacxof256 8), 2 ^ 2040 ≤ 8 * (live.setBuf .key X).mem.len b) ∧
    (∃ X, X.length = 2 ^ 2037 - 1 ∧
      ∀ b ∈ buffersEncoded (.kmacxof256 8), 8 * (live.setBuf .key X).mem.len b < 2 ^ 2040) ∧
    live.status.fault = false ∧ live.config.bufMax = some 16 ∧ 16 < 2 ^ 2037 ∧ live.mem.wf live.config = true ∧
    ∃ t, exec (.kmacxof256 8) live = .next t := by
  obtain ⟨X, hX⟩ := exists_length (2 ^ 2037)
  obtain ⟨Y, hY⟩ := exists_length (2 ^ 2037 - 1)
  refine ⟨rfl, by decide, ?_, ⟨X, rfl, .key, by decide, ?_⟩, ⟨Y, hY, ?_⟩, rfl, rfl, small_bytes (by decide),
    by decide, exec_total ..⟩
  · intro o h
    cases h
    decide
  · have : (live.setBuf .key X).mem.len .key = X.length := rfl
    rw [this, hX, pow_split]
  · intro b hb
    simp only [buffersEncoded, List.mem_cons, List.not_mem_nil, or_false] at hb
    rcases hb with rfl | rfl
    · exact (just_short hY).2.2
    · have : (live.setBuf .key Y).mem.len .cust = 1 := rfl
      rw [this]
      exact small (by decide)

theorem witness_PortFaultsAreRecorded : live.status.fault = false ∧ BufName.cust ≠ .out ∧ live.config.bufMax = some 16 ∧
    16 < (List.replicate 17 0 : Bytes).length ∧ (List.replicate 16 0 : Bytes).length ≤ 16 ∧ 24 < 25 ∧
    unbounded.status.fault = false ∧ unbounded.config.bufMax = none := by decide

theorem witness_StatusBitsAndCauseCodes : Cause.badPortIndex.code = Cause.badPortIndex.code := rfl

theorem witness_ResetValuesAndHreset : faulted.status.fault = true ∧ ∃ t, performPort .hreset faulted = .next t ∧
    t.status.fault = false := ⟨rfl, _, rfl, rfl⟩

theorem witness_HwrbufReplacesWholeBuffer : live.status.fault = false ∧ BufName.inp ≠ .out ∧
    (∀ m, live.config.bufMax = some m → (List.replicate 16 1 : Bytes).length ≤ m) ∧ live.config.bufMax = some 16 ∧
    16 < (List.replicate 17 1 : Bytes).length := by
  refine ⟨rfl, by decide, ?_, rfl, by decide⟩
  intro m h
  cases h
  decide

theorem witness_LanePortsMoveOneLane : live.status.fault = false ∧ 24 ≤ 24 ∧ 24 < 25 := by decide

theorem witness_ReadingOperationsReturnState : live.status.fault = false := rfl

theorem faulted_inv : faulted.Inv :=
  ⟨by decide, by decide, fun _ => ⟨.roundsRange, by decide, rfl⟩, fun _ => ⟨lane_faultEntry _ _ _, rfl⟩, by decide⟩

theorem witness_FaultedPortIgnoresWrites : faulted.status.fault = true ∧ faulted.Inv := ⟨rfl, faulted_inv⟩

theorem witness_StepRunsIssuedCommand : (asked [.hissue 0x0119000000000000]).port = [.hissue 0x0119000000000000] ∧
    (asked [.hissue 0x0119000000000000]).status.fault = false ∧ decode 0x0119000000000000 = .ok (.permute 25) ∧
    (asked [.hissue 0]).port = [.hissue 0] ∧ decode 0 = .error .unassignedOp := ⟨rfl, rfl, by decide, rfl, by decide⟩

theorem witness_EveryStepHasNextState : live.port = [] := rfl

theorem live_inv : live.Inv :=
  ⟨by decide, by decide, fun h => absurd h (by decide), fun h => absurd h (by decide), by decide⟩

/-- A step that completes a command, and a step that faults. -/
theorem witness_InvariantKeptByEveryStep :
    (∃ t, (asked [.hissue 0x0100000000000000]).Inv ∧ step (asked [.hissue 0x0100000000000000]) = .next t) ∧
    ∃ t, (asked [.hissue 0x0119000000000000]).Inv ∧ step (asked [.hissue 0x0119000000000000]) = .next t :=
  ⟨⟨_, ⟨live_inv.1, live_inv.2, live_inv.3, live_inv.4, live_inv.5⟩, rfl⟩,
    ⟨_, ⟨live_inv.1, live_inv.2, live_inv.3, live_inv.4, live_inv.5⟩, rfl⟩⟩

/-- A faulted engine whose record is true, and a live one that the step makes fault. -/
theorem witness_FaultRecordStaysTrue : (faulted.faultExplained ∧ ∃ t, step faulted = .next t) ∧
    (asked [.hissue 0x0119000000000000]).faultExplained ∧
    ∃ t, step (asked [.hissue 0x0119000000000000]) = .next t ∧ t.status.fault = true :=
  ⟨⟨fun _ => .inr (.inl ⟨rfl, 25, by decide, by decide⟩), _, rfl⟩, fun h => absurd h (by decide), _, rfl, by decide⟩

theorem witness_OnlyResetLeavesFault :
    faulted.status.fault = true ∧ (∃ t, step { faulted with port := [.hissue 0x0118000000000000] } = .next t) ∧
    ({ faulted with port := [.hissue 0x0118000000000000] } : State).port.head? ≠ some .hreset ∧
    (asked [.hreset]).port = [.hreset] := ⟨rfl, ⟨_, rfl⟩, by decide, rfl⟩

theorem witness_LaneFileHasFewWriters : ∃ t, step (asked [.hwrlane 24 7]) = .next t ∧
    t.lanes ≠ (asked [.hwrlane 24 7]).lanes := ⟨_, rfl, by decide⟩

theorem witness_InputBuffersChangedByHostOnly : BufName.name ≠ .out ∧
    ∃ t, step (asked [.hwrbuf (some .name) []]) = .next t ∧
      t.mem.get .name ≠ (asked [.hwrbuf (some .name) []]).mem.get .name := ⟨by decide, _, rfl, by decide⟩

/-- Two engines with different keys of the same length, about to perform `PERMUTE 0`. -/
theorem witness_InputContentsCannotBeReadBack :
    let s := asked [.hissue 0x0100000000000000]
    let t := s.setBuf .key [0x99]
    SameButInputContents s t ∧ s ≠ t ∧
      (∀ w i rest, s.port = .hissue w :: rest → decode w = .ok i → ¬spongeClass i) ∧ ∃ s', step s = .next s' := by
  refine ⟨⟨rfl, rfl, rfl, rfl, rfl, rfl, rfl, ?_⟩, by decide, ?_, _, rfl⟩
  · intro b
    cases b <;> rfl
  · intro w i rest h hd
    injection h with h
    injection h with h
    rw [← h] at hd
    have : decode 0x0100000000000000 = .ok (.permute 0) := by decide
    rw [this] at hd
    injection hd with hd
    rw [← hd]
    simp [spongeClass, outbitsOf]

/-- An engine whose buffers the key just fits and whose `OUT` the result just fits, and one without a limit. -/
theorem witness_HostCallReturnsKmac :
    let K : Bytes := List.replicate 16 0x01
    (asked (kmacCall K [0x61] 512 [0x54])).port = kmacCall K [0x61] 512 [0x54] ++ [] ∧
    (asked (kmacCall K [0x61] 512 [0x54])).status.fault = false ∧
    (∀ m, live.config.bufMax = some m → K.length ≤ m ∧ ([0x61] : Bytes).length ≤ m ∧ ([0x54] : Bytes).length ≤ m) ∧
    (∀ m, unbounded.config.bufMax = some m → K.length ≤ m ∧ ([0x61] : Bytes).length ≤ m ∧ ([0x54] : Bytes).length ≤ m) ∧
    (512 : BitVec 32).toNat % 8 = 0 ∧ (512 : BitVec 32).toNat / 8 ≤ live.config.outMax.val ∧
    8 * K.length < 2 ^ 2040 ∧ 8 * ([0x54] : Bytes).length < 2 ^ 2040 ∧
    ∃ Z, kmacxof256 K [0x61] (512 : BitVec 32).toNat [0x54] = .ok Z := by
  refine ⟨by simp [asked], rfl, ?_, ?_, by decide, by decide, small (by decide), small (by decide),
    kmacxof256_ok _ _ (lt_encLimit (by decide)) (lt_encLimit (by decide))⟩
  · intro m h
    cases h
    decide
  · intro m h
    cases h

/-- A call of the host layer on operands whose lengths are in the domain returns `d div 8` bytes. -/
theorem hostKmac_ok {K C : Bytes} (X : Bytes) {d : Nat} (hd : d < 2 ^ 32) (hK : 8 * K.length < encLimit)
    (hC : 8 * C.length < encLimit) : ∃ Z, hostKmac K X d C = .ok Z ∧ Z.length = d / 8 := by
  obtain ⟨Z, hZ⟩ := kmacxof256_ok X d hK hC
  exact ⟨Z, by rw [hostKmac, if_pos hd, hZ], length_kmacxof256 hZ⟩

/-- The keys of any 64 random bytes and a short passphrase exist, 64 bytes each. -/
theorem deriveKeys_ok {rand p : Bytes} (h : (rand ++ p).length < 1000) :
    ∃ keys, deriveKeys rand p = .ok keys ∧ keys.1.length = 64 ∧ keys.2.length = 64 := by
  obtain ⟨Z, hZ, hl⟩ := hostKmac_ok (K := rand ++ p) (C := custS) [] (d := 1024) (by decide) (lt_encLimit (by omega))
    (lt_encLimit (by decide))
  exact ⟨(slice Z 0 64, slice Z 64 128), by simp only [deriveKeys, hZ, bind, Except.bind, pure, Except.pure],
    by simp [hl], by simp [hl]⟩

/-- Encryption of a short message under a short passphrase completes, for every nonce. -/
theorem witness_DecryptOfEncryptIsMessage : ∃ c, encrypt (Vector.replicate 64 0x5A) [0x61] [0x70] = .ok c := by
  obtain ⟨keys, hk, h₁, h₂⟩ := deriveKeys_ok (rand := (Vector.replicate 64 (0x5A : Byte)).toList) (p := [0x70]) (by simp)
  obtain ⟨ks, hs, -⟩ := hostKmac_ok (K := keys.1) (C := custSKE) [] (d := 8 * ([0x61] : Bytes).length) (by decide)
    (lt_encLimit (by rw [h₁]; decide)) (lt_encLimit (by decide))
  obtain ⟨t, ht, -⟩ := hostKmac_ok (K := keys.2) (C := custSKA) [0x61] (d := 512) (by decide)
    (lt_encLimit (by rw [h₂]; decide)) (lt_encLimit (by decide))
  exact ⟨(Vector.replicate 64 0x5A).toList ++ xorBytes ks [0x61] ++ t,
    by simp only [encrypt, applyKeystream, hk, hs, ht, bind, Except.bind, pure, Except.pure]⟩

theorem witness_DecryptTooShort : (List.replicate 127 0 : Bytes).length < 128 := by simp

/-- A cryptogram that decrypts: a nonce, no ciphertext, and the tag that the derived key gives the empty message. -/
theorem witness_DecryptReleasesOnlyAuthenticated : ∃ c, decrypt c [0x70] = .ok [] := by
  obtain ⟨keys, hk, h₁, h₂⟩ := deriveKeys_ok (rand := List.replicate 64 0x5A) (p := [0x70]) (by simp)
  obtain ⟨ks, hs, -⟩ := hostKmac_ok (K := keys.1) (C := custSKE) [] (d := 8 * ([] : Bytes).length) (by decide)
    (lt_encLimit (by rw [h₁]; decide)) (lt_encLimit (by decide))
  obtain ⟨t, ht, hl⟩ := hostKmac_ok (K := keys.2) (C := custSKA) [] (d := 512) (by decide)
    (lt_encLimit (by rw [h₂]; decide)) (lt_encLimit (by decide))
  have hl : t.length = 64 := hl
  have h₃ : slice (List.replicate 64 0x5A ++ t) 0 64 = List.replicate 64 0x5A := by simp [slice]
  have h₄ : slice (List.replicate 64 0x5A ++ t) 64 64 = [] := by simp [slice]
  have h₅ : slice (List.replicate 64 0x5A ++ t) 64 128 = t := by simp [slice, hl]
  have hx : applyKeystream keys.1 [] = .ok [] := by
    simp only [applyKeystream, hs, bind, Except.bind, pure, Except.pure, xorBytes, List.zipWith_nil_right]
  refine ⟨List.replicate 64 0x5A ++ t, ?_⟩
  have hlen : (List.replicate 64 (0x5A : Byte) ++ t).length = 128 := by simp [hl]
  rw [decrypt, if_neg (by omega)]
  simp only [hlen, h₃, h₄, h₅, hk, hx, ht, bind, Except.bind, pure, Except.pure, if_true]

theorem witness_HexRoundTripIgnoresBlanks :
    (" 4B\t4D ".toList.filter fun ch => !isBlank ch) = toHex [0x4B, 0x4D] := by decide

end Sys2Proof.Tests
end

section
/-! The values right after reset (R19), and what a port operation does on a faulted engine (R110). -/

namespace Sys2Proof.Machine

/-! ### Reset values (R19, R101) -/

@[simp] theorem memory_get_empty (b : BufName) : Memory.empty.get b = [] := by
  cases b <;> rfl

@[simp] theorem status_word_zero : Status.zero.word = 0 := by decide

/-- A zeroised lane file reads zero at every index, in range or not. -/
theorem lane_of_zeroised {s : State} (h : s.lanes = Vector.replicate 25 0) (i : Nat) : s.lane i = 0 := by
  by_cases hi : i < 25
  · rw [lane_eq s hi]
    simp [h]
  · exact lane_out_of_range s (by omega)

/-! ### Port operations on a faulted engine (R110) -/

theorem portHwrbuf_faulted {s : State} (hf : s.status.fault = true) (b : Option BufName) (X : Bytes) :
    portHwrbuf b X s = s := if_pos hf

theorem portHwrlane_faulted {s : State} (hf : s.status.fault = true) (i : Nat) (v : Lane) :
    portHwrlane i v s = s := if_pos hf

theorem portHissue_faulted {s : State} (hf : s.status.fault = true) (w : Word) :
    portHissue w s = .next s := if_pos hf

theorem portHrdlane_faulted {s : State} (hf : s.status.fault = true) (i : Nat) :
    portHrdlane i s = s.giveHost (.u64 0) := if_pos hf

/-- All that a port operation other than `HRESET` can do on a faulted engine: nothing, or hand a value to the host. -/
theorem performPort_faulted {op : PortOp} {s t : State} (hf : s.status.fault = true)
    (h : performPort op s = .next t) (hop : op ≠ .hreset) : t = s ∨ ∃ v, t = s.giveHost v := by
  cases op with
  | hreset => exact absurd rfl hop
  | hwrbuf b X =>
    rw [performPort, portHwrbuf_faulted hf] at h
    cases h
    exact .inl rfl
  | hwrlane i v =>
    rw [performPort, portHwrlane_faulted hf] at h
    cases h
    exact .inl rfl
  | hissue w =>
    rw [performPort, portHissue_faulted hf] at h
    cases h
    exact .inl rfl
  | hrdlane i =>
    rw [performPort, portHrdlane_faulted hf] at h
    cases h
    exact .inr ⟨_, rfl⟩
  | hrdout | hrdstatus | hrdfcmd | hrdlen =>
    cases h
    exact .inr ⟨_, rfl⟩

theorem performPort_faulted_status {op : PortOp} {s t : State} (hf : s.status.fault = true)
    (h : performPort op s = .next t) (hop : op ≠ .hreset) : t.status = s.status := by
  obtain rfl | ⟨v, rfl⟩ := performPort_faulted hf h hop
  · rfl
  · exact giveHost_status s v

/-- Settles O43: reset and `HRESET` write the same values, and every other operation keeps a faulted `STATUS`. -/
theorem resetValuesAndHreset : Obligations.ResetValuesAndHreset := by
  refine ⟨fun c => ⟨lane_of_zeroised rfl, memory_get_empty, status_word_zero, rfl, rfl, rfl, rfl⟩,
    fun s => ⟨portHreset s, rfl, lane_of_zeroised rfl, memory_get_empty, status_word_zero, rfl⟩, ?_⟩
  intro op s t hf h ht
  by_contra hop
  rw [performPort_faulted_status hf h hop, hf] at ht
  cases ht

end Sys2Proof.Machine
end

section
/-! The byte view of a state (R21): the bytes of a lane, and the two views inverse to each other. -/

namespace Sys2Proof.Machine

theorem getLsbD_leByte (v : Lane) (k : Nat) {b : Nat} (h : b < 8) :
    (leByte v k).getLsbD b = v.getLsbD (8 * k + b) := by
  rw [leByte, BitVec.getLsbD_extractLsb', decide_eq_true h, Bool.true_and]

/-- A lane is determined by its eight bytes (R6): bit `b` is bit `b mod 8` of byte `b div 8`. -/
theorem lane_eq_of_leByte {v w : Lane} (h : ∀ k : Fin 8, leByte v k = leByte w k) : v = w := by
  apply BitVec.eq_of_getLsbD_eq
  intro b hb
  have hmod : b % 8 < 8 := Nat.mod_lt b (by decide)
  have hbyte := congrArg (·.getLsbD (b % 8)) (h ⟨b / 8, by omega⟩)
  simpa only [getLsbD_leByte _ _ hmod, Nat.div_add_mod] using hbyte

/-- The bytes of `from_le64` are the bytes it was built of (R6): bits `8k+7 : 8k` of the concatenation skip the `k` bytes
below and are one whole byte. -/
theorem leByte_fromLe64 (SB : StateBytes) (i : Fin 25) (k : Fin 8) :
    leByte (fromLe64 SB i) k = SB[8 * i.val + k.val] := by
  fin_cases k <;>
    simp (disch := omega) only [leByte, fromLe64, BitVec.extractLsb'_append_eq_of_le,
      BitVec.extractLsb'_append_eq_of_add_le] <;>
    exact BitVec.extractLsb'_eq_self

/-- Byte `8i + k` of the byte view is byte `k` of lane `i` (R21). -/
theorem getElem_stateBytes_lane (A : Lanes) (i : Fin 25) (k : Fin 8) :
    (stateBytes A)[8 * i.val + k.val] = leByte A[i] k := by
  have hdiv : (8 * i.val + k.val) / 8 = i.val := by omega
  have hmod : (8 * i.val + k.val) % 8 = k.val := by omega
  rw [getElem_stateBytes _ (by omega)]
  simp only [hdiv, hmod, Fin.getElem_fin]

theorem stateLanes_stateBytes (A : Lanes) : stateLanes (stateBytes A) = A := by
  apply Vector.ext
  intro i hi
  rw [getElem_stateLanes _ hi]
  apply lane_eq_of_leByte
  intro k
  rw [leByte_fromLe64, getElem_stateBytes_lane]
  rfl

theorem stateBytes_stateLanes (SB : StateBytes) : stateBytes (stateLanes SB) = SB := by
  apply Vector.ext
  intro j hj
  have hbyte := leByte_fromLe64 SB ⟨j / 8, by omega⟩ ⟨j % 8, by omega⟩
  rw [getElem_stateBytes _ hj, getElem_stateLanes, hbyte]
  simp only [Nat.div_add_mod]

/-- Settles O15: each byte of the view is a byte of its lane, and both views carry the same bytes. -/
theorem byteViewIsLittleEndianBijection : Obligations.ByteViewIsLittleEndianBijection :=
  ⟨getElem_stateBytes_lane, stateLanes_stateBytes, stateBytes_stateLanes⟩

end Sys2Proof.Machine
end

section
/-! The selection of a row by mask and match (R35): the rows are disjoint, and the decoder follows them. -/

namespace Sys2Proof

theorem selects_iff_and_eq (r : OpRow) (w : Word) : r.selects w = true ↔ w &&& r.mask = r.matchVal := beq_iff_eq

theorem row_mem_opRows (i : Instr) : i.row ∈ opRows := by
  cases i <;> simp [Instr.row, opRows]

/-! ### Disjoint rows -/

/-- Every mask of the table covers the whole `op` field. -/
theorem opField_of_selects {r : OpRow} (hr : r ∈ opRows) {w : Word} (h : r.selects w = true) :
    opField w = opField r.matchVal := by
  have hmask : ∀ r ∈ opRows, opField r.mask = BitVec.allOnes 8 := by decide
  obtain ⟨hop, -⟩ := (selects_iff r w).mp h
  rwa [hmask r hr, BitVec.and_allOnes] at hop

/-- The five opcodes of the table are distinct. -/
theorem row_eq_of_opField_eq :
    ∀ r ∈ opRows, ∀ r' ∈ opRows, opField r.matchVal = opField r'.matchVal → r = r' := by decide

/-- At most one row selects a word. -/
theorem row_eq_of_selects {r r' : OpRow} (hr : r ∈ opRows) (hr' : r' ∈ opRows) {w : Word} (h : r.selects w = true)
    (h' : r'.selects w = true) : r = r' :=
  row_eq_of_opField_eq r hr r' hr' ((opField_of_selects hr h).symm.trans (opField_of_selects hr' h'))

/-! ### The decoder's answer and the row of the word -/

/-- A command comes from a word that its own row selects. -/
theorem row_selects_of_decode {w : Word} {i : Instr} (hd : decode w = .ok i) : i.row.selects w = true := by
  obtain ⟨hs, h⟩ | ⟨hs, h⟩ | ⟨hs, h⟩ | ⟨hs, h⟩ | ⟨hs, h⟩ | ⟨-, h⟩ := decode_cases w <;> rw [h] at hd <;> cases hd
  all_goals exact hs

/-- A word that some row selects is not rejected. -/
theorem exists_decode_of_selects {r : OpRow} (hr : r ∈ opRows) {w : Word} (h : r.selects w = true) :
    ∃ i, decode w = .ok i := by
  obtain ⟨-, hd⟩ | ⟨-, hd⟩ | ⟨-, hd⟩ | ⟨-, hd⟩ | ⟨-, hd⟩ | ⟨hnone, -⟩ := decode_cases w
  case inr.inr.inr.inr.inr =>
    rw [hnone r hr] at h
    cases h
  all_goals exact ⟨_, hd⟩

theorem selects_iff_decode {r : OpRow} (hr : r ∈ opRows) (w : Word) :
    r.selects w = true ↔ ∃ i, decode w = .ok i ∧ i.row = r := by
  constructor
  · intro h
    obtain ⟨i, hd⟩ := exists_decode_of_selects hr h
    exact ⟨i, hd, row_eq_of_selects (row_mem_opRows i) hr (row_selects_of_decode hd) h⟩
  · rintro ⟨i, hd, rfl⟩
    exact row_selects_of_decode hd

/-! ### Unused fields -/

/-- `rounds` is an operand of `PERMUTE` alone. -/
theorem roundsField_eq_zero_of_row_selects {w : Word} {i : Instr} (h : i.row.selects w = true)
    (hi : i.row ≠ rowPermute) : roundsField w = 0 := by
  cases i with
  | permute => exact absurd rfl hi
  | sponge => exact ((selects_sponge w).mp h).2
  | shake256 => exact ((selects_shake256 w).mp h).2.1
  | cshake256 => exact ((selects_cshake256 w).mp h).2.1
  | kmacxof256 => exact ((selects_kmacxof256 w).mp h).2.1

/-- `cap` is an operand of `SPONGE` alone. -/
theorem capField_eq_zero_of_row_selects {w : Word} {i : Instr} (h : i.row.selects w = true)
    (hi : i.row ≠ rowSponge) : capField w = 0 := by
  cases i with
  | permute => exact ((selects_permute w).mp h).2.1
  | sponge => exact absurd rfl hi
  | shake256 => exact ((selects_shake256 w).mp h).2.2
  | cshake256 => exact ((selects_cshake256 w).mp h).2.2
  | kmacxof256 => exact ((selects_kmacxof256 w).mp h).2.2

/-- Settles O4: the decoder follows the table's selection, whose rows differ in `op`, the field every mask covers. -/
theorem rowSelectionIsMaskAndMatch : Obligations.RowSelectionIsMaskAndMatch := by
  refine ⟨rfl, ?selection, ?disjoint, ?unused⟩
  case selection =>
    intro w r hr
    rw [← selects_iff_and_eq, selects_iff_decode hr]
  case disjoint =>
    intro w r hr r' hr' h h'
    exact row_eq_of_selects hr hr' ((selects_iff_and_eq r w).mpr h) ((selects_iff_and_eq r' w).mpr h')
  case unused =>
    intro w i hd
    have hs := row_selects_of_decode hd
    refine ⟨fun hi => ?_, roundsField_eq_zero_of_row_selects hs, fun _ => capField_eq_zero_of_row_selects hs⟩
    rw [hi, selects_permute] at hs
    exact hs.2

end Sys2Proof
end

section
/-! The rotation `rotl64` (R50): a rotation to the left of Lean's bit vectors, its bits, and its arithmetic. -/

namespace Sys2Proof.Machine

/-- The two terms of R50 have no bit in common. -/
theorem shiftLeft_and_shiftRight_rest (v : Lane) (m : Nat) : v <<< m &&& v >>> (64 - m) = 0#64 := by
  apply BitVec.eq_of_getLsbD_eq
  intro z hz
  rw [BitVec.getLsbD_and, BitVec.getLsbD_shiftLeft, BitVec.getLsbD_ushiftRight, BitVec.getLsbD_zero]
  by_cases hm : z < m
  · simp [hm]
  · simp [BitVec.getLsbD_of_ge v (64 - m + z) (by omega)]

theorem rotl64_of_mod_eq_zero (v : Lane) {n : Nat} (h : n % 64 = 0) : rotl64 v n = v := if_pos h

theorem rotl64_of_mod_ne_zero (v : Lane) {n : Nat} (h : n % 64 ≠ 0) :
    rotl64 v n = v <<< (n % 64) + v >>> (64 - n % 64) := if_neg h

@[simp] theorem rotl64_zero_amount (v : Lane) : rotl64 v 0 = v := rotl64_of_mod_eq_zero v rfl

/-- The sum of the two terms is their union, as they have no bit in common. -/
theorem rotl64_eq_rotateLeft (v : Lane) (n : Nat) : rotl64 v n = v.rotateLeft n := by
  rw [BitVec.rotateLeft_def]
  by_cases h : n % 64 = 0
  · rw [rotl64_of_mod_eq_zero v h, h]
    simp [BitVec.ushiftRight_eq_zero]
  · rw [rotl64_of_mod_ne_zero v h, BitVec.add_eq_or_of_and_eq_zero _ _ (shiftLeft_and_shiftRight_rest v _)]

/-- Bit `z` comes from the place `n mod 64` below it, counted round the lane. -/
theorem getLsbD_rotl64 (v : Lane) (n : Nat) {z : Nat} (hz : z < 64) :
    (rotl64 v n).getLsbD z = v.getLsbD ((z + (64 - n % 64)) % 64) := by
  rw [rotl64_eq_rotateLeft, BitVec.getLsbD_rotateLeft]
  by_cases h : z < n % 64
  · rw [decide_eq_true h, cond_true]
    congr 1
    omega
  · rw [decide_eq_false h, decide_eq_true hz, cond_false, Bool.true_and]
    congr 1
    omega

/-- The sum of the two terms has no carry out of the lane. -/
theorem toNat_rotl64 (v : Lane) {n : Nat} (h : n % 64 ≠ 0) :
    (rotl64 v n).toNat = (v.toNat * 2 ^ (n % 64)) % 2 ^ 64 + v.toNat / 2 ^ (64 - n % 64) := by
  rw [rotl64_of_mod_ne_zero v h, BitVec.toNat_add_of_and_eq_zero (shiftLeft_and_shiftRight_rest v _),
    BitVec.toNat_shiftLeft, BitVec.toNat_ushiftRight, Nat.shiftLeft_eq, Nat.shiftRight_eq_div_pow]

/-- Every bit moves up by `n mod 64` places, round the lane. -/
theorem getLsbD_rotl64_moved (v : Lane) (n : Nat) {z : Nat} (hz : z < 64) :
    (rotl64 v n).getLsbD ((z + n % 64) % 64) = v.getLsbD z := by
  rw [getLsbD_rotl64 v n (Nat.mod_lt _ (by decide))]
  congr 1
  omega

@[simp] theorem rotl64_zero (n : Nat) : rotl64 0 n = 0 := by
  apply BitVec.eq_of_getLsbD_eq
  intro z hz
  rw [getLsbD_rotl64 _ _ hz]
  simp

theorem rotl64_xor (v w : Lane) (n : Nat) : rotl64 (v ^^^ w) n = rotl64 v n ^^^ rotl64 w n := by
  apply BitVec.eq_of_getLsbD_eq
  intro z hz
  simp only [BitVec.getLsbD_xor, getLsbD_rotl64 _ _ hz]

/-- Rotations add up. -/
theorem rotl64_rotl64 (v : Lane) (m n : Nat) : rotl64 (rotl64 v m) n = rotl64 v (m + n) := by
  apply BitVec.eq_of_getLsbD_eq
  intro z hz
  rw [getLsbD_rotl64 _ _ hz, getLsbD_rotl64 _ _ (Nat.mod_lt _ (by decide)), getLsbD_rotl64 _ _ hz]
  congr 1
  omega

theorem rotl64_injective (n : Nat) : Function.Injective (rotl64 · n) := by
  intro v w h
  apply BitVec.eq_of_getLsbD_eq
  intro z hz
  rw [← getLsbD_rotl64_moved v n hz, ← getLsbD_rotl64_moved w n hz]
  exact congrArg (BitVec.getLsbD · _) h

/-- The largest offset of the table of R52. -/
theorem rhoOffsets_le : ∀ x y : Fin 5, (rhoOffsets[x])[y] ≤ 62 := by decide

/-- Settles O7: the two terms of the rule have no bit in common, so their sum has no carry and is a rotation. -/
theorem rotateLeftMovesBits : Obligations.RotateLeftMovesBits :=
  ⟨fun v _ h => rotl64_of_mod_eq_zero v h, fun v _ h => toNat_rotl64 v h, fun v n _ hz => getLsbD_rotl64_moved v n hz,
    rhoOffsets_le, by decide, fun v => ⟨rotl64_zero_amount v, rotl64_of_mod_eq_zero v rfl⟩⟩

end Sys2Proof.Machine
end

section
/-! The step mappings θ, ρ∘π, χ and ι (R51, R52, R55, R56): the new lane at each column and row. -/

namespace Sys2Proof.Machine

/-! ### Exclusive or of lanes, as far as `simp` needs it to cancel equal terms -/

theorem lane_xor_left_comm (a b c : Lane) : a ^^^ (b ^^^ c) = b ^^^ (a ^^^ c) := by
  rw [← BitVec.xor_assoc, BitVec.xor_comm a b, BitVec.xor_assoc]

theorem lane_xor_cancel_left (a b : Lane) : a ^^^ (a ^^^ b) = b := by
  rw [← BitVec.xor_assoc, BitVec.xor_self, BitVec.zero_xor]

/-! ### θ -/

theorem laneAt_theta (A : Lanes) (x y : Fin 5) :
    laneAt (theta A) x y = laneAt A x y ^^^ (columnParity A (x + 4) ^^^ rotl64 (columnParity A (x + 1)) 1) := by
  simp only [theta, laneAt_buildLanes, Vector.getElem_ofFn, Fin.eta]

/-- A state whose columns have even parity is left unchanged. -/
theorem theta_of_columnParity_eq_zero {A : Lanes} (h : ∀ x, columnParity A x = 0) : theta A = A := by
  apply lanes_ext
  intro x y
  rw [laneAt_theta, h, h, rotl64_zero]
  exact (congrArg _ BitVec.xor_self).trans BitVec.xor_zero

/-- Settles O8: the parities are those of the input state, and a zero parity adds nothing. -/
theorem thetaAddsColumnParities : Obligations.ThetaAddsColumnParities :=
  fun A => ⟨laneAt_theta A, theta_of_columnParity_eq_zero⟩

/-! ### ρ∘π -/

/-- The source that `rhopi` reads for the position `(y, 2x + 3y)` is `(x, y)`. -/
theorem rhopi_source : ∀ x y : Fin 5, y + 3 * (2 * x + 3 * y) = x := by decide

theorem laneAt_rhopi (A : Lanes) (x y : Fin 5) :
    laneAt (rhopi A) y (2 * x + 3 * y) = rotl64 (laneAt A x y) (rhoOffsets[x])[y] := by
  rw [rhopi, laneAt_buildLanes]
  simp only [rhopi_source, Fin.getElem_fin]

/-- Settles O9: `rhopi` reads the lane that the rule moves; the cycle and its offsets are read off the table. -/
theorem rhoPiRotatesAndMoves : Obligations.RhoPiRotatesAndMoves :=
  ⟨laneAt_rhopi, by decide⟩

/-! ### χ -/

theorem laneAt_chi (A : Lanes) (x y : Fin 5) :
    laneAt (chi A) x y = laneAt A x y ^^^ (~~~(laneAt A (x + 1) y) &&& laneAt A (x + 2) y) := by
  rw [chi, laneAt_buildLanes]

@[simp] theorem laneAt_replicate (v : Lane) (x y : Fin 5) : laneAt (Vector.replicate 25 v) x y = v := by
  simp [laneAt]

/-- A state of equal lanes `v` with `¬v ∧ v = 0` is a fixed point of `chi`. -/
theorem chi_replicate (v : Lane) : chi (Vector.replicate 25 v) = Vector.replicate 25 v := by
  apply lanes_ext
  intro x y
  have hand : ~~~v &&& v = 0#64 := by
    apply BitVec.eq_of_getLsbD_eq
    intro z hz
    simp
  rw [laneAt_chi, laneAt_replicate, laneAt_replicate, laneAt_replicate, hand, BitVec.xor_zero]

/-- Settles O11: a state of equal lanes is fixed, as no bit is both set and clear. -/
theorem chiCombinesRowNeighbours : Obligations.ChiCombinesRowNeighbours :=
  ⟨laneAt_chi, chi_replicate _, chi_replicate _⟩

/-! ### ι -/

theorem iota_lane_zero (A : Lanes) (ir : Fin 24) : (iota A ir)[0] = A[0] ^^^ roundConstants[ir] :=
  Vector.getElem_set_self _

theorem iota_lane_of_ne_zero (A : Lanes) (ir : Fin 24) {i : Fin 25} (h : i ≠ 0) : (iota A ir)[i] = A[i] :=
  Vector.getElem_set_ne _ _ (fun h0 => h (Fin.ext h0.symm))

/-- The bits `2^j − 1` of the table are the outputs of the shift register (R57). -/
theorem roundConstants_bit : ∀ (ir : Fin 24) (j : Fin 7),
    roundConstants[ir].getLsbD (2 ^ j.val - 1) = Claims.rc (j.val + 7 * ir.val) := by decide

/-- The lane with exactly the bits `2^j − 1` set, `j = 0 .. 6`. -/
def roundConstantMask : Lane := 0x800000008000808B

theorem roundConstantMask_bit :
    ∀ z : Fin 64, (∀ j : Fin 7, z.val ≠ 2 ^ j.val - 1) → roundConstantMask.getLsbD z.val = false := by decide

theorem roundConstants_and_mask : ∀ ir : Fin 24, roundConstants[ir] &&& roundConstantMask = roundConstants[ir] := by
  decide

theorem roundConstants_other_bit (ir : Fin 24) (z : Fin 64) (hz : ∀ j : Fin 7, z.val ≠ 2 ^ j.val - 1) :
    roundConstants[ir].getLsbD z.val = false := by
  rw [← roundConstants_and_mask, BitVec.getLsbD_and, roundConstantMask_bit z hz, Bool.and_false]

/-- Settles O12: `iota` sets lane 0 only, and no constant has a bit outside the seven that the shift register gives. -/
theorem iotaAddsRoundConstants : Obligations.IotaAddsRoundConstants :=
  ⟨fun A ir => ⟨iota_lane_zero A ir, fun _ h => iota_lane_of_ne_zero A ir h⟩,
    fun ir => ⟨roundConstants_bit ir, roundConstants_other_bit ir⟩⟩

end Sys2Proof.Machine
end

section
/-! The cycle walk of R53 against the closed form (R54). -/

namespace Sys2Proof.Machine

/-- The walk writes to its targets only. -/
theorem walk_of_notMem (path : List (Fin 25 × Nat)) (held : Lanes × Lane) {i : Fin 25}
    (h : i ∉ path.map Prod.fst) : (path.foldl walkStep held).1[i] = held.1[i] := by
  induction path generalizing held with
  | nil => rfl
  | cons k path ih =>
    rw [List.map_cons, List.mem_cons, not_or] at h
    rw [List.foldl_cons, ih _ h.2]
    exact Vector.getElem_set_ne k.1.isLt i.isLt (Fin.val_ne_of_ne (Ne.symm h.1))

/-- What step `k` of a walk with distinct targets writes is still there at its end: the lane held at first when `k = 0`,
else the old content of the target before, rotated. -/
theorem walk_target (path : List (Fin 25 × Nat)) (hnd : (path.map Prod.fst).Nodup) (held : Lanes × Lane) (k : Nat)
    (hk : k < path.length) :
    (path.foldl walkStep held).1[path[k].1] =
      rotl64 (if k = 0 then held.2 else held.1[path[k - 1].1]) path[k].2 := by
  induction path generalizing held k with
  | nil => cases hk
  | cons p path ih =>
    obtain ⟨hp, hnd⟩ := List.nodup_cons.mp hnd
    cases k with
    | zero =>
      refine (walk_of_notMem path _ hp).trans ?_
      exact Vector.getElem_set_self _
    | succ k =>
      have hk : k < path.length := Nat.lt_of_succ_lt_succ hk
      refine (ih hnd (walkStep held p) k hk).trans ?_
      cases k with
      | zero => rfl
      | succ k =>
        have hne : p.1 ≠ path[k].1 := fun h => hp (h ▸ List.mem_map_of_mem (List.getElem_mem _))
        have hkept : (walkStep held p).1[path[k].1] = held.1[path[k].1] :=
          Vector.getElem_set_ne p.1.isLt path[k].1.isLt (Fin.val_ne_of_ne hne)
        simp [hkept]

/-- The lane whose old content step `k` of the walk writes. -/
def walkSource (k : Fin 24) : Fin 25 := if k.val = 0 then 1 else piln.getD (k.val - 1) 0

theorem map_fst_piln_zip_rotc : (piln.zip rotc).map Prod.fst = piln := List.map_fst_zip (by decide)

theorem getElem_piln_zip_rotc {k : Nat} (hk : k < (piln.zip rotc).length) :
    (piln.zip rotc)[k] = (piln.getD k 0, rotc.getD k 0) := by
  rw [List.getElem_zip, List.getElem_eq_getD 0, List.getElem_eq_getD 0]

theorem rhopiWalk_target (A : Lanes) (k : Fin 24) :
    (rhopiWalk A)[piln.getD k.val 0] = rotl64 A[walkSource k] (rotc.getD k.val 0) := by
  have hnd : ((piln.zip rotc).map Prod.fst).Nodup := by
    rw [map_fst_piln_zip_rotc]
    decide
  have hk : k.val < (piln.zip rotc).length := k.isLt
  have hwalk := walk_target (piln.zip rotc) hnd (A, A[1]) k.val hk
  simp only [getElem_piln_zip_rotc] at hwalk
  rw [rhopiWalk, hwalk]
  by_cases h0 : k.val = 0
  · simp only [walkSource, if_pos h0]
    rfl
  · simp only [walkSource, if_neg h0]

theorem rhopiWalk_lane_zero (A : Lanes) : (rhopiWalk A)[(0 : Fin 25)] = A[(0 : Fin 25)] :=
  walk_of_notMem _ _ (by rw [map_fst_piln_zip_rotc]; decide)

/-- The tables of R53 follow the map of R52: each step's source is some `(x, y)`, its target `(y, 2x + 3y)`, and its
amount `RHO[x][y]`. -/
theorem walk_tables : ∀ k : Fin 24, ∃ x y : Fin 5, (walkSource k).val = x.val + 5 * y.val ∧
    (piln.getD k.val 0).val = y.val + 5 * (2 * x + 3 * y).val ∧ rotc.getD k.val 0 = (rhoOffsets[x])[y] := by decide

theorem lane_eq_laneAt (A : Lanes) {i : Fin 25} {x y : Fin 5} (h : i.val = x.val + 5 * y.val) :
    A[i] = laneAt A x y := by
  simp only [laneAt, Fin.getElem_fin, h]

theorem rhopi_target (A : Lanes) (k : Fin 24) :
    (rhopi A)[piln.getD k.val 0] = rotl64 A[walkSource k] (rotc.getD k.val 0) := by
  obtain ⟨x, y, hsource, htarget, hamount⟩ := walk_tables k
  rw [lane_eq_laneAt _ hsource, lane_eq_laneAt _ htarget, hamount, laneAt_rhopi]

theorem rhopi_lane_zero (A : Lanes) : (rhopi A)[(0 : Fin 25)] = A[(0 : Fin 25)] :=
  (laneAt_rhopi A 0 0).trans (rotl64_zero_amount _)

/-- The walk writes every lane but lane 0. -/
theorem exists_walk_target : ∀ i : Fin 25, i ≠ 0 → ∃ k : Fin 24, piln.getD k.val 0 = i := by decide

theorem rhopiWalk_eq_rhopi (A : Lanes) : rhopiWalk A = rhopi A := by
  have hlane (i : Fin 25) : (rhopiWalk A)[i] = (rhopi A)[i] := by
    by_cases hi : i = 0
    · rw [hi, rhopiWalk_lane_zero, rhopi_lane_zero]
    · obtain ⟨k, rfl⟩ := exists_walk_target i hi
      rw [rhopiWalk_target, rhopi_target]
  exact Vector.ext fun i hi => hlane ⟨i, hi⟩

/-- Settles O10: the walk's targets are distinct, so each of its writes stays, and it is the write of the closed form. -/
theorem rhoPiWalkAgreesWithClosedForm : Obligations.RhoPiWalkAgreesWithClosedForm :=
  fun A => ⟨rhopiWalk_eq_rhopi A, rhopi_target A⟩

end Sys2Proof.Machine
end

section
/-! The rounds of Keccak-p in order (R59), and Keccak-f as a bijection on the states (R60): every step mapping is
injective, and there are finitely many states. -/

namespace Sys2Proof.Machine

/-! ### The rounds (R59) -/

theorem keccakP_zero (A : Lanes) : keccakP A 0 = A := by
  have hnone : (List.finRange 24).drop 24 = [] := List.drop_eq_nil_of_le (Nat.le_of_eq List.length_finRange)
  exact congrArg (List.foldl rnd A) hnone

/-- One more round is one round earlier. -/
theorem keccakP_succ (A : Lanes) (rounds : Fin 24) :
    keccakP A rounds.succ = keccakP (rnd A rounds.rev) rounds.castSucc := by
  have hfirst : 24 - rounds.succ.val = rounds.rev.val := by rw [Fin.val_succ, Fin.val_rev]
  have hnext : rounds.rev.val + 1 = 24 - rounds.castSucc.val := by
    rw [Fin.val_rev, Fin.val_castSucc]
    omega
  rw [keccakP, hfirst, List.drop_eq_getElem_cons (by rw [List.length_finRange]; exact rounds.rev.isLt),
    List.getElem_finRange, List.foldl_cons, hnext]
  rfl

/-- Settles O13: the list of rounds loses its first entry, round `23 − rounds`, when one round less is asked for. -/
theorem keccakPUsesLastRounds : Obligations.KeccakPUsesLastRounds :=
  ⟨fun A => ⟨keccakP_zero A, (keccakP_succ A 0).trans (keccakP_zero _)⟩, keccakP_succ⟩

theorem keccakF_eq_foldl (A : Lanes) : keccakF A = (List.finRange 24).foldl rnd A := rfl

/-! ### θ is injective

The parities of `theta A` depend on those of `A` alone, by a map of the form of `columnMix`. Its square has that form
too, both moves and the amount doubled; six squarings turn the rotation by 1 into one by 64, which is none, and what is
left of the map has an inverse. -/

/-- Five lanes, each added to the one `a` places on and to the rotated one `b` places on. -/
def columnMix (a b : Fin 5) (n : Nat) (c : Fin 5 → Lane) : Fin 5 → Lane :=
  fun x => c x ^^^ (c (x + a) ^^^ rotl64 (c (x + b)) n)

/-- θ adds to a column five times the same lane, which changes its parity by that lane once. -/
theorem columnParity_theta (A : Lanes) : columnParity (theta A) = columnMix 4 1 1 (columnParity A) := by
  funext x
  have hfive (d a₀ a₁ a₂ a₃ a₄ : Lane) :
      (a₀ ^^^ d) ^^^ (a₁ ^^^ d) ^^^ (a₂ ^^^ d) ^^^ (a₃ ^^^ d) ^^^ (a₄ ^^^ d) =
        (a₀ ^^^ a₁ ^^^ a₂ ^^^ a₃ ^^^ a₄) ^^^ d := by
    simp only [BitVec.xor_assoc, lane_xor_left_comm, lane_xor_cancel_left]
  rw [columnParity]
  simp only [laneAt_theta, hfive]
  rfl

theorem columnMix_columnMix (a b : Fin 5) (n : Nat) (c : Fin 5 → Lane) :
    columnMix a b n (columnMix a b n c) = columnMix (a + a) (b + b) (n + n) c := by
  funext x
  have hba : x + b + a = x + a + b := add_right_comm x b a
  simp only [columnMix, rotl64_xor, rotl64_rotl64, hba, ← add_assoc]
  simp only [BitVec.xor_assoc, lane_xor_left_comm, lane_xor_cancel_left]

theorem columnMix_injective_of_double {a b : Fin 5} {n : Nat}
    (h : Function.Injective (columnMix (a + a) (b + b) (n + n))) : Function.Injective (columnMix a b n) := by
  have hsq : columnMix a b n ∘ columnMix a b n = columnMix (a + a) (b + b) (n + n) :=
    funext (columnMix_columnMix a b n)
  rw [← hsq] at h
  exact h.of_comp

/-- Without a rotation, adding both neighbours is undone by adding both lanes two places away: every other lane is then
counted twice. -/
theorem columnMix_neighbours_leftInverse : Function.LeftInverse (columnMix 2 3 0) (columnMix 1 4 64) := by
  intro c
  funext x
  have h₆₄ (v : Lane) : rotl64 v 64 = v := rotl64_of_mod_eq_zero v rfl
  simp only [columnMix, h₆₄, rotl64_zero_amount, add_assoc, Fin.reduceAdd]
  simp only [BitVec.xor_assoc, BitVec.xor_comm, lane_xor_left_comm, lane_xor_cancel_left, BitVec.xor_self,
    BitVec.xor_zero]

theorem columnMix_theta_injective : Function.Injective (columnMix 4 1 1) := by
  iterate 6 apply columnMix_injective_of_double
  exact columnMix_neighbours_leftInverse.injective

theorem theta_injective : Function.Injective theta := by
  intro A B h
  have hC : columnParity A = columnParity B := by
    apply columnMix_theta_injective
    rw [← columnParity_theta, ← columnParity_theta, h]
  apply lanes_ext
  intro x y
  have hxy : laneAt (theta A) x y = laneAt (theta B) x y := by rw [h]
  rwa [laneAt_theta, laneAt_theta, hC, BitVec.xor_left_inj] at hxy

/-! ### ρ∘π, χ and ι are injective -/

theorem rhopi_injective : Function.Injective rhopi := by
  intro A B h
  apply lanes_ext
  intro x y
  apply rotl64_injective (rhoOffsets[x])[y]
  show rotl64 _ _ = rotl64 _ _
  rw [← laneAt_rhopi, ← laneAt_rhopi, h]

/-- The lane before χ, from the five lanes of its row after χ. -/
def chiInverseLane (b₀ b₁ b₂ b₃ b₄ : Lane) : Lane := b₀ ^^^ (~~~b₁ &&& (b₂ ^^^ (~~~b₃ &&& b₄)))

/-- `chiInverseLane` undoes χ, bit by bit. -/
theorem chiInverseLane_laneAt_chi (A : Lanes) (x y : Fin 5) :
    chiInverseLane (laneAt (chi A) x y) (laneAt (chi A) (x + 1) y) (laneAt (chi A) (x + 2) y)
      (laneAt (chi A) (x + 3) y) (laneAt (chi A) (x + 4) y) = laneAt A x y := by
  have hbit : ∀ a₀ a₁ a₂ a₃ a₄ : Bool,
      ((a₀ ^^ (!a₁ && a₂)) ^^ (!(a₁ ^^ (!a₂ && a₃)) && ((a₂ ^^ (!a₃ && a₄)) ^^
        (!(a₃ ^^ (!a₄ && a₀)) && (a₄ ^^ (!a₀ && a₁)))))) = a₀ := by decide
  apply BitVec.eq_of_getLsbD_eq
  intro z hz
  simp only [chiInverseLane, laneAt_chi, BitVec.getLsbD_xor, BitVec.getLsbD_and, BitVec.getLsbD_not, hz,
    decide_true, Bool.true_and, add_assoc, Fin.reduceAdd, add_zero]
  exact hbit _ _ _ _ _

theorem chi_injective : Function.Injective chi := by
  intro A B h
  apply lanes_ext
  intro x y
  rw [← chiInverseLane_laneAt_chi A, ← chiInverseLane_laneAt_chi B, h]

/-- Adding a round constant twice adds nothing. -/
theorem iota_iota (A : Lanes) (ir : Fin 24) : iota (iota A ir) ir = A := by
  have hzero : (iota (iota A ir) ir)[0] = A[0] := by
    rw [iota_lane_zero, iota_lane_zero, BitVec.xor_assoc, BitVec.xor_self, BitVec.xor_zero]
  have hlane (i : Fin 25) : (iota (iota A ir) ir)[i] = A[i] := by
    by_cases hi : i = 0
    · rw [hi]
      exact hzero
    · rw [iota_lane_of_ne_zero _ _ hi, iota_lane_of_ne_zero _ _ hi]
  exact Vector.ext fun i hi => hlane ⟨i, hi⟩

theorem iota_injective (ir : Fin 24) : Function.Injective (iota · ir) :=
  Function.LeftInverse.injective (g := (iota · ir)) (iota_iota · ir)

/-! ### Keccak-f is a bijection (R60) -/

theorem rnd_injective (ir : Fin 24) : Function.Injective (rnd · ir) :=
  (iota_injective ir).comp (chi_injective.comp (rhopi_injective.comp theta_injective))

theorem foldl_rnd_injective (rounds : List (Fin 24)) : Function.Injective (rounds.foldl rnd) := by
  induction rounds with
  | nil => exact Function.injective_id
  | cons ir rounds ih => exact ih.comp (rnd_injective ir)

/-- There are finitely many states: a state is determined by its 25 lanes. -/
theorem lanes_finite : Finite Lanes :=
  Finite.of_injective (fun A : Lanes => laneAt A) fun _ _ h => lanes_ext fun x y => congrFun (congrFun h x) y

theorem keccakF_bijective : Function.Bijective keccakF := by
  have := lanes_finite
  exact Finite.injective_iff_bijective.mp (foldl_rnd_injective (List.finRange 24))

/-- Settles O14: the rounds are injective, as each of the four step mappings is, and the states are finitely many. -/
theorem keccakFIsBijection : Obligations.KeccakFIsBijection :=
  ⟨fun A => ⟨rfl, keccakF_eq_foldl A⟩, fun _ => rfl, keccakF_bijective⟩

end Sys2Proof.Machine
end

section
/-! What the sponge absorbs, block by block (R67), every byte it squeezes (R68), and its outputs of several lengths
(R69). -/

namespace Sys2Proof.Machine

/-! ### Absorbing (R67) -/

theorem absorb_nil (r : Nat) : absorb [] r = zeroState := by
  simp [absorb]

/-- Block `b` of `Q` is block `b` of anything that begins with `Q`. -/
theorem xorBlock_append_left {r b : Nat} {Q : Bytes} (h : b < Q.length / r) (B : Bytes) (WS : StateBytes) :
    xorBlock r (Q ++ B) WS b = xorBlock r Q WS b := by
  have hend : (b + 1) * r ≤ Q.length := Nat.mul_le_of_le_div r (b + 1) Q.length h
  apply Vector.ext
  intro k hk
  rw [getElem_xorBlock _ _ _ _ hk, getElem_xorBlock _ _ _ _ hk]
  split
  · rw [List.getD_append _ _ _ _ (by rw [Nat.add_one_mul] at hend; omega)]
  · rfl

/-- The block after the whole blocks of `Q` is the first block of what follows `Q`. -/
theorem xorBlock_append_right {r : Nat} {Q : Bytes} (h : Q.length % r = 0) (B : Bytes) (WS : StateBytes) :
    xorBlock r (Q ++ B) WS (Q.length / r) = xorBlock r B WS 0 := by
  have hQ : Q.length / r * r = Q.length := Nat.div_mul_cancel (Nat.dvd_of_mod_eq_zero h)
  apply Vector.ext
  intro k hk
  rw [getElem_xorBlock _ _ _ _ hk, getElem_xorBlock _ _ _ _ hk, hQ, List.getD_append_right _ _ _ _ (by omega),
    Nat.add_sub_cancel_left, Nat.zero_mul, Nat.zero_add]

theorem absorb_append {r : Nat} (hr : 1 ≤ r) {Q B : Bytes} (hQ : Q.length % r = 0) (hB : B.length = r) :
    absorb (Q ++ B) r = keccakFBytes (xorBlock r B (absorb Q r) 0) := by
  have hblocks : (Q ++ B).length / r = Q.length / r + 1 := by
    rw [List.length_append, hB, Nat.add_div_right _ hr]
  have hfirst : (List.range (Q.length / r)).foldl (fun WS b => keccakFBytes (xorBlock r (Q ++ B) WS b)) zeroState =
      absorb Q r :=
    List.foldl_ext _ _ _ fun WS b hb => by rw [xorBlock_append_left (List.mem_range.mp hb)]
  rw [absorb, hblocks, List.range_succ, List.foldl_append, hfirst, List.foldl_cons, List.foldl_nil,
    xorBlock_append_right hQ]

/-- Settles O17: the blocks of `Q` are absorbed as before, and the block after them is `B`. -/
theorem absorbXorsBlockAndPermutes : Obligations.AbsorbXorsBlockAndPermutes := by
  intro r hr _
  refine ⟨absorb_nil r, fun Q B hQ hB => ?_⟩
  rw [absorb_append hr hQ hB]
  simp only [xorBlock, Nat.zero_mul, Nat.zero_add]

/-! ### Squeezing (R68) -/

theorem getElem?_emission (WS : StateBytes) {r m : Nat} (h : m < r) : (emission WS r)[m]? = WS[m]? := by
  rw [emission, slice, List.drop_zero, Nat.sub_zero, List.getElem?_take_of_lt h, Vector.getElem?_toList]

/-- What is out stays out. -/
theorem prefix_squeezeLoop (r n fuel : Nat) (WS : StateBytes) (Z : Bytes) : Z <+: squeezeLoop r n fuel WS Z := by
  induction fuel generalizing WS Z with
  | zero => exact List.prefix_rfl
  | succ fuel ih =>
    unfold squeezeLoop
    split
    · exact (List.prefix_append Z _).trans (ih _ _)
    · exact List.prefix_rfl

theorem squeezeLoop_succ_of_lt {r n : Nat} {Z : Bytes} (h : Z.length < n) (fuel : Nat) (WS : StateBytes) :
    squeezeLoop r n (fuel + 1) WS Z = squeezeLoop r n fuel (keccakFBytes WS) (Z ++ emission (keccakFBytes WS) r) :=
  if_pos h

/-- When the state `WS` has just emitted after `Z`, byte `k` of its emission follows `Z`, however long the loop runs on. -/
theorem getElem?_squeezeLoop_emission (n fuel : Nat) (WS : StateBytes) (Z : Bytes) {r k : Nat} (hr' : r ≤ 200)
    (hk : k < r) : (squeezeLoop r n fuel WS (Z ++ emission WS r))[Z.length + k]? = WS[k]? := by
  obtain ⟨T, hT⟩ := prefix_squeezeLoop r n fuel WS (Z ++ emission WS r)
  have hlen := length_emission WS hr'
  rw [← hT, List.getElem?_append_left (by rw [List.length_append]; omega),
    List.getElem?_append_right (Nat.le_add_right ..), Nat.add_sub_cancel_left, getElem?_emission WS hk]

/-- Byte `k` of the emission after `j` more permutations, when the loop asks for it and has the fuel to reach it. -/
theorem getElem?_squeezeLoop {r n k : Nat} (hr : 1 ≤ r) (hr' : r ≤ 200) (hk : k < r) (j fuel : Nat) (WS : StateBytes)
    (Z : Bytes) (hn : Z.length + (j * r + k) < n) (hfuel : n ≤ Z.length + r + fuel) :
    (squeezeLoop r n fuel WS (Z ++ emission WS r))[Z.length + (j * r + k)]? = ((keccakFBytes^[j]) WS)[k]? := by
  induction j generalizing fuel WS Z with
  | zero =>
    rw [Nat.zero_mul, Nat.zero_add]
    exact getElem?_squeezeLoop_emission n fuel WS Z hr' hk
  | succ j ih =>
    have hlen : (Z ++ emission WS r).length = Z.length + r := by rw [List.length_append, length_emission WS hr']
    have hpos : Z.length + ((j + 1) * r + k) = (Z ++ emission WS r).length + (j * r + k) := by
      rw [hlen, Nat.add_one_mul]
      omega
    obtain ⟨fuel, rfl⟩ := Nat.exists_eq_succ_of_ne_zero (show fuel ≠ 0 by omega)
    rw [squeezeLoop_succ_of_lt (by omega), hpos, Function.iterate_succ_apply]
    exact ih fuel _ _ (by omega) (by omega)

theorem getElem?_squeeze (WS : StateBytes) {r n m : Nat} (hr : 1 ≤ r) (hr' : r ≤ 200) (hm : m < n) :
    (squeeze WS r n)[m]? = ((keccakFBytes^[m / r]) WS)[m % r]? := by
  have hm' : m / r * r + m % r = m := Nat.div_add_mod' m r
  have hloop := getElem?_squeezeLoop hr hr' (Nat.mod_lt m hr) (m / r) n WS [] (n := n) (by simpa [hm'] using hm)
    (Nat.le_add_left ..)
  rw [hm', List.length_nil, Nat.zero_add, List.nil_append] at hloop
  rw [squeeze, slice, List.drop_zero, Nat.sub_zero, List.getElem?_take_of_lt hm, hloop]

/-- Settles O18: the bytes of the loop of R68, of which the first `n` are kept. -/
theorem squeezeBytesOfPermutedStates : Obligations.SqueezeBytesOfPermutedStates :=
  fun WS _ n hr hr' => ⟨length_squeeze WS n hr hr', fun _ => getElem?_squeeze WS hr hr'⟩

/-! ### Outputs of several lengths (R69) -/

theorem squeeze_eq_take (WS : StateBytes) {r n₁ n₂ : Nat} (hr : 1 ≤ r) (hr' : r ≤ 200) (h : n₁ ≤ n₂) :
    squeeze WS r n₁ = (squeeze WS r n₂).take n₁ := by
  apply List.ext_getElem?
  intro m
  by_cases hm : m < n₁
  · rw [List.getElem?_take_of_lt hm, getElem?_squeeze WS hr hr' hm, getElem?_squeeze WS hr hr' (hm.trans_le h)]
  · rw [List.getElem?_eq_none (by rw [length_squeeze WS n₁ hr hr']; omega),
      List.getElem?_eq_none (by rw [List.length_take]; omega)]

/-- Settles O19: no byte squeezed depends on how many are asked for. -/
theorem spongeOutputsArePrefixes : Obligations.SpongeOutputsArePrefixes := by
  intro P c
  obtain ⟨hr, hr'⟩ := rateBytes_bounds c
  exact ⟨fun d => ⟨rfl, length_sponge P d c⟩, fun _ _ _ _ h => squeeze_eq_take _ hr hr' (Nat.div_le_div_right h)⟩

end Sys2Proof.Machine
end

section
/-! The minimal big-endian representation `be(x)` (R75), as the digits of `x` in base 256, and the length encodings
built on it (R76, R77). -/

namespace Sys2Proof.Machine

/-! ### The recursion of `be` -/

/-- The number shrinks with every byte, so fuel beyond the number itself is never used. -/
theorem beDigits_eq_of_le_fuel {f g x : Nat} (hf : x ≤ f) (hg : x ≤ g) : beDigits f x = beDigits g x := by
  induction f generalizing g x with
  | zero =>
    obtain rfl := Nat.le_zero.mp hf
    cases g <;> rfl
  | succ f ih =>
    by_cases hx : x < 256
    · cases g <;> simp [beDigits, hx]
    · obtain ⟨g, rfl⟩ := Nat.exists_eq_succ_of_ne_zero (show g ≠ 0 by omega)
      simp only [beDigits, if_neg hx, ih (g := g) (x := x / 256) (by omega) (by omega)]

theorem be_of_lt {x : Nat} (h : x < 256) : be x = [BitVec.ofNat 8 x] := by
  cases x with
  | zero => rfl
  | succ n => exact if_pos h

theorem be_of_le {x : Nat} (h : 256 ≤ x) : be x = be (x / 256) ++ [BitVec.ofNat 8 x] := by
  obtain ⟨n, rfl⟩ := Nat.exists_eq_succ_of_ne_zero (show x ≠ 0 by omega)
  rw [be, beDigits, if_neg (by omega), beDigits_eq_of_le_fuel (by omega) le_rfl, ← be]

/-- The bytes are the digits in base 256, the most significant first. -/
theorem map_toNat_be {x : Nat} (h : 0 < x) : (be x).map BitVec.toNat = (Nat.digits 256 x).reverse := by
  induction x using Nat.strong_induction_on with
  | h x ih =>
    by_cases hx : x < 256
    · rw [be_of_lt hx, Nat.digits_of_lt 256 x h.ne' hx]
      simp [Nat.mod_eq_of_lt hx]
    · have hdiv := ih (x / 256) (by omega) (by omega)
      rw [be_of_le (by omega), Nat.digits_def' (by decide) h]
      simp [hdiv]

/-! ### Value, length and first byte (R75) -/

/-- The natural that bytes, the most significant first, stand for. -/
def bigEndianValue (B : Bytes) : Nat := B.foldl (fun a d => 256 * a + d.toNat) 0

theorem bigEndianValue_eq_ofDigits (B : Bytes) : bigEndianValue B = Nat.ofDigits 256 (B.map BitVec.toNat).reverse := by
  rw [Nat.ofDigits_eq_foldr, List.foldr_reverse, List.foldl_map]
  simp [bigEndianValue, Nat.add_comm]

@[simp] theorem bigEndianValue_be (x : Nat) : bigEndianValue (be x) = x := by
  rcases Nat.eq_zero_or_pos x with rfl | h
  · rfl
  · rw [bigEndianValue_eq_ofDigits, map_toNat_be h, List.reverse_reverse, Nat.ofDigits_digits]

theorem be_injective : Function.Injective be := Function.LeftInverse.injective bigEndianValue_be

theorem length_be {x : Nat} (h : 0 < x) : (be x).length = (Nat.digits 256 x).length := by
  rw [← List.length_map, map_toNat_be h, List.length_reverse]

theorem lt_length_be_iff {x k : Nat} (h : 0 < x) : k < (be x).length ↔ 256 ^ k ≤ x := by
  rw [length_be h, Nat.lt_digits_length_iff (by decide)]

theorem length_be_pos (x : Nat) : 0 < (be x).length := by
  rcases Nat.eq_zero_or_pos x with rfl | h
  · exact Nat.one_pos
  · exact (lt_length_be_iff h).mpr h

theorem length_be_le_iff {x k : Nat} (hk : 0 < k) : (be x).length ≤ k ↔ x < 256 ^ k := by
  rcases Nat.eq_zero_or_pos x with rfl | h
  · exact iff_of_true hk (by positivity)
  · rw [length_be h, Nat.digits_length_le_iff (by decide)]

/-- The most significant digit of a positive number is not zero. -/
theorem head?_be_ne_zero {x : Nat} (h : 0 < x) : (be x).head? ≠ some 0x00 := by
  intro h0
  have hdigit : (Nat.digits 256 x).getLast? = some 0 := by
    rw [← List.head?_reverse, ← map_toNat_be h, List.head?_map, h0]
    rfl
  rw [List.getLast?_eq_some_getLast (Nat.digits_ne_nil_iff_ne_zero.mpr h.ne')] at hdigit
  exact Nat.getLast_digit_ne_zero 256 h.ne' (Option.some.inj hdigit)

/-! ### The domain of the length encodings (R80) -/

theorem two_pow_2040 : 2 ^ 2040 = encLimit := by
  rw [encLimit_eq]

theorem length_be_le_255 {x : Nat} (h : x < encLimit) : (be x).length ≤ 255 := (length_be_le_iff (by decide)).mpr h

/-- On the domain the length byte is exact. -/
theorem toNat_length_be {x : Nat} (h : x < encLimit) : (BitVec.ofNat 8 (be x).length).toNat = (be x).length :=
  Nat.mod_eq_of_lt ((length_be_le_255 h).trans_lt (by decide))

theorem rightEncode_ok {x : Nat} (h : x < encLimit) : rightEncode x = .ok (be x ++ [BitVec.ofNat 8 (be x).length]) :=
  if_pos h

theorem rightEncode_error {x : Nat} (h : encLimit ≤ x) : rightEncode x = .error .encodeDomain := if_neg h.not_gt

/-- Settles O20: the bytes are the digits in base 256, of which the first is not zero. -/
theorem bigEndianIsMinimal : Obligations.BigEndianIsMinimal := by
  refine ⟨rfl, fun x => ⟨bigEndianValue_be x, length_be_pos x, fun hx => ⟨head?_be_ne_zero hx, ?_, ?_⟩, ?_⟩⟩
  · exact (lt_length_be_iff hx).mp (Nat.sub_lt (length_be_pos x) Nat.one_pos)
  · exact (length_be_le_iff (length_be_pos x)).mp le_rfl
  · rw [two_pow_2040]
    exact length_be_le_255

/-- Settles O21: below `2^2040` a number has at most 255 bytes, so the length byte holds their count. -/
theorem lengthEncodingsOnDomain : Obligations.LengthEncodingsOnDomain := by
  intro x
  rw [two_pow_2040]
  exact ⟨fun h => ⟨_, toNat_length_be h, leftEncode_ok h, rightEncode_ok h⟩,
    fun h => ⟨leftEncode_error h, rightEncode_error h⟩⟩

end Sys2Proof.Machine
end

section
/-! Reading back `encode_string` (R81), and the bytes that `bytepad` adds (R79). -/

namespace Sys2Proof.Machine

open Sys2Proof.Claims

/-! ### Reading back (R81) -/

/-- What the reader makes of a length byte, that many bytes, and the rest. -/
theorem parseString_lengthPrefix {n : Byte} {B : Bytes} (hn : n.toNat = B.length) (rest : Bytes) :
    parseString (n :: (B ++ rest)) =
      some (rest.take (bigEndianValue B / 8), rest.drop (bigEndianValue B / 8)) := by
  simp [parseString, bigEndianValue, hn]

/-- The domain of `encode_string` in bytes: `2037 = 2040 - 3`. -/
theorem bitLength_lt_encLimit {X : Bytes} (h : X.length < 2 ^ 2037) : 8 * X.length < encLimit := by
  calc 8 * X.length < 8 * 2 ^ 2037 := Nat.mul_lt_mul_of_pos_left h (by decide)
    _ = encLimit := by rw [← two_pow_2040, show 2040 = 3 + 2037 from rfl, Nat.pow_add]

theorem exists_encodeString_parse {X : Bytes} (h : 8 * X.length < encLimit) (Y : Bytes) :
    ∃ E, encodeString X = .ok E ∧ parseString (E ++ Y) = some (X, Y) := by
  refine ⟨_, encodeString_ok h, ?_⟩
  have hparse := parseString_lengthPrefix (toNat_length_be h) (X ++ Y)
  rw [bigEndianValue_be, Nat.mul_div_cancel_left _ (by decide), List.take_left, List.drop_left] at hparse
  rw [← hparse, List.cons_append, List.cons_append, List.append_assoc]

theorem eq_of_leftEncode_ok {x : Nat} {p : Bytes} (h : leftEncode x = .ok p) :
    x < encLimit ∧ p = BitVec.ofNat 8 (be x).length :: be x := by
  by_cases hx : x < encLimit
  · rw [leftEncode_ok hx] at h
    exact ⟨hx, (Except.ok.inj h).symm⟩
  · rw [leftEncode_error (not_lt.mp hx)] at h
    cases h

/-- The first byte gives the number of those that follow, so neither value can go on where the other ends. -/
theorem eq_of_leftEncode_prefix {x y : Nat} {p q : Bytes} (hp : leftEncode x = .ok p) (hq : leftEncode y = .ok q)
    (h : p <+: q) : x = y := by
  obtain ⟨hx, rfl⟩ := eq_of_leftEncode_ok hp
  obtain ⟨hy, rfl⟩ := eq_of_leftEncode_ok hq
  obtain ⟨hcount, hbytes⟩ := List.cons_prefix_cons.mp h
  have hlen : (be x).length = (be y).length := by rw [← toNat_length_be hx, hcount, toNat_length_be hy]
  exact be_injective (hbytes.eq_of_length hlen)

theorem exists_encodeString_length {X : Bytes} (h : 8 * X.length < encLimit) :
    ∃ E, encodeString X = .ok E ∧ E.length = X.length + ((be (8 * X.length)).length + 1) := by
  refine ⟨_, encodeString_ok h, ?_⟩
  rw [List.length_append, List.length_cons, Nat.add_comm]

/-- Settles O22: the length byte and the bit length it announces tell where the string begins and ends. -/
theorem encodeStringParsesBack : Obligations.EncodeStringParsesBack := by
  refine ⟨fun X Y h => exists_encodeString_parse (bitLength_lt_encLimit h) Y,
    fun x y p q => eq_of_leftEncode_prefix, fun X h => ?upTo31, fun X h => ?at32⟩
  case upTo31 =>
    have hlen : (be (8 * X.length)).length = 1 :=
      le_antisymm ((length_be_le_iff Nat.one_pos).mpr (by omega)) (length_be_pos _)
    simpa [hlen] using exists_encodeString_length (X := X) (lt_encLimit (by omega))
  case at32 =>
    have hlen : (be (8 * X.length)).length = 2 := by rw [h]; rfl
    simpa [hlen] using exists_encodeString_length (X := X) (lt_encLimit (by omega))

/-! ### Padding to a multiple (R79) -/

theorem bytepad_zero (X : Bytes) : bytepad X 0 = .error .badPadWidth := rfl

theorem bytepad_ok {w : Nat} {p : Bytes} (hw : 1 ≤ w) (hp : leftEncode w = .ok p) (X : Bytes) :
    bytepad X w = .ok (p ++ X ++ zeros ((w - (p ++ X).length % w) % w)) := by
  rw [bytepad, if_neg (by omega), hp]
  rfl

/-- What `bytepad` adds to a length completes it to a multiple of the width. -/
theorem add_padding_mod {w : Nat} (hw : 1 ≤ w) (n : Nat) : (n + (w - n % w) % w) % w = 0 := by
  have hrest := Nat.mod_lt n hw
  have hdiv := Nat.div_add_mod n w
  have hsum : n + (w - n % w) = w * (n / w) + w := by omega
  rw [Nat.add_mod_mod, hsum, Nat.add_mod_right, Nat.mul_mod_right]

/-- Settles O23: fewer than `w` zero bytes are added, and they complete the length to a multiple of `w`. -/
theorem bytepadFillsLeastMultiple : Obligations.BytepadFillsLeastMultiple := by
  refine ⟨bytepad_zero, fun X w hw hlim => ?_, fun X => ⟨_, bytepad_136 X⟩⟩
  have hp := leftEncode_ok (two_pow_2040 ▸ hlim)
  exact ⟨_, _, hp, bytepad_ok hw hp X, add_padding_mod hw _, Nat.mod_lt _ hw⟩

end Sys2Proof.Machine
end

section
/-! What SHAKE256 and cSHAKE256 give the sponge (R85, R87), and what `pad` makes of it (R66). -/

namespace Sys2Proof.Machine

/-! ### SHAKE256 (R85) -/

theorem pad_of_whole_blocks {P : Bytes} {r : Nat} (h : P.length % r = 0) : pad P r = P := if_pos h

theorem pad_of_partial_block {P : Bytes} {r : Nat} (h : P.length % r ≠ 0) :
    pad P r = P ++ zeros (r - P.length % r - 1) ++ [0x80] := if_neg h

theorem shake256_of_no_room {X : Bytes} (h : X.length % 136 = 135) (d : Nat) :
    shake256 X d = sponge (X ++ [0x9F]) d cap512 := by
  rw [shake256, shakeSuffix, if_pos h]

theorem shake256_of_room {X : Bytes} (h : X.length % 136 ≠ 135) (d : Nat) :
    shake256 X d = sponge (X ++ [0x1F]) d cap512 := by
  rw [shake256, shakeSuffix, if_neg h]

/-- Settles O24: the suffix byte either completes a block, to which `pad` adds nothing, or leaves room for the `80`. -/
theorem shakeAbsorbsSuffixAndPadding : Obligations.ShakeAbsorbsSuffixAndPadding := by
  intro X d
  have hlen (b : Byte) : (X ++ [b]).length = X.length + 1 := List.length_append
  refine ⟨fun h => ?noRoom, fun h => ?room⟩
  case noRoom => exact ⟨shake256_of_no_room h d, pad_of_whole_blocks (by rw [hlen]; omega)⟩
  case room =>
    have hpart : (X ++ [0x1F]).length % 136 ≠ 0 := by
      rw [hlen]
      omega
    refine ⟨shake256_of_room h d, _, ?lt, ?fills, pad_of_partial_block hpart⟩
    case lt => omega
    case fills =>
      rw [hlen]
      omega

/-! ### cSHAKE256 (R87) -/

theorem cshake256_nil (X : Bytes) (d : Nat) : cshake256 X d [] [] = .ok (shake256 X d) := rfl

/-- One string that is not empty is enough for the second branch. -/
theorem cshake256_eq_map_sponge {N C : Bytes} (h : N ≠ [] ∨ C ≠ []) (X : Bytes) (d : Nat) :
    cshake256 X d N C = (cshakeInput X N C).map (sponge · d cap512) := by
  have hne : ¬(N.length = 0 ∧ C.length = 0) := by
    rwa [List.length_eq_zero_iff, List.length_eq_zero_iff, not_and_or]
  rw [cshake256, if_neg hne]
  cases cshakeInput X N C <;> rfl

/-- `encode_string` refuses whichever of the two strings is too long (R80). -/
theorem cshakeInput_error {N C : Bytes} (h : encLimit ≤ 8 * N.length ∨ encLimit ≤ 8 * C.length) (X : Bytes) :
    cshakeInput X N C = .error .encodeDomain := by
  by_cases hN : encLimit ≤ 8 * N.length
  · rw [cshakeInput, encodeString_error hN]
    rfl
  · rw [cshakeInput, encodeString_ok (not_le.mp hN), encodeString_error (h.resolve_left hN)]
    rfl

/-- From `2^2037` bytes on, a string is outside the domain of `encode_string`. -/
theorem encLimit_le_bitLength {X : Bytes} (h : 2 ^ 2037 ≤ X.length) : encLimit ≤ 8 * X.length := by
  calc encLimit = 8 * 2 ^ 2037 := by rw [← two_pow_2040, show 2040 = 3 + 2037 from rfl, Nat.pow_add]
    _ ≤ 8 * X.length := Nat.mul_le_mul_left 8 h

theorem ne_nil_of_two_pow_le_length {X : Bytes} (h : 2 ^ 2037 ≤ X.length) : X ≠ [] :=
  List.ne_nil_of_length_pos ((Nat.two_pow_pos 2037).trans_le h)

theorem encodeString_nil : encodeString [] = .ok [0x01, 0x00] := by
  rw [encodeString_ok (lt_encLimit (by decide))]
  rfl

/-- An empty string contributes two bytes (R87). -/
theorem eq_of_encodeString_nil {E : Bytes} (h : encodeString [] = .ok E) : E = [0x01, 0x00] :=
  Except.ok.inj (h.symm.trans encodeString_nil)

theorem length_bytepad_136 {Y p : Bytes} (h : bytepad Y 136 = .ok p) :
    p.length = 2 + Y.length + (136 - (2 + Y.length) % 136) % 136 := by
  rw [bytepad_136] at h
  obtain rfl := Except.ok.inj h
  rw [List.length_append, List.length_append, length_zeros, Nat.add_comm Y.length]
  rfl

/-- Settles O25: the strings are encoded in front of the input, or refused, unless both are empty. -/
theorem cshakeBuildsItsInput : Obligations.CshakeBuildsItsInput := by
  refine ⟨cshake256_nil, fun X N C d hne hN hC => ?encoded, fun X N C d hlong => ?refused⟩
  case encoded =>
    obtain ⟨n, c, p, hn, hc, hp, hT⟩ := cshakeInput_ok X (bitLength_lt_encLimit hN) (bitLength_lt_encLimit hC)
    have hlen := length_bytepad_136 hp
    rw [List.length_append] at hlen
    refine ⟨n, c, p, hn, hc, hp, ?wholeBlocks, fun hroom => ?oneBlock, ?emptyName, ?emptyCust, ?sponge⟩
    case wholeBlocks =>
      rw [hlen]
      exact add_padding_mod (by decide) _
    case oneBlock => omega
    case emptyName =>
      rintro rfl
      exact eq_of_encodeString_nil hn
    case emptyCust =>
      rintro rfl
      exact eq_of_encodeString_nil hc
    case sponge =>
      rw [cshake256_eq_map_sponge hne, hT]
      rfl
  case refused =>
    rw [cshake256_eq_map_sponge (hlong.imp ne_nil_of_two_pow_le_length ne_nil_of_two_pow_le_length),
      cshakeInput_error (hlong.imp encLimit_le_bitLength encLimit_le_bitLength)]
    rfl

end Sys2Proof.Machine
end

section
/-! What KMACXOF256 gives the sponge (R92), byte by byte, and the corner where `pad` adds nothing to it (R95). -/

namespace Sys2Proof.Machine

/-- `encode_string("KMAC")`: the 32 bits of the fixed name, and the name. -/
theorem encodeString_kmacName : encodeString kmacName = .ok [0x01, 0x20, 0x4B, 0x4D, 0x41, 0x43] := by
  rw [encodeString_ok (lt_encLimit (by decide))]
  rfl

theorem eq_of_bytepad_136 {Y p : Bytes} (h : bytepad Y 136 = .ok p) :
    p = [0x01, 0x88] ++ Y ++ zeros ((136 - (2 + Y.length) % 136) % 136) := by
  rw [bytepad_136, Nat.add_comm Y.length] at h
  exact (Except.ok.inj h).symm

theorem length_bytepad_136_mod {Y p : Bytes} (h : bytepad Y 136 = .ok p) : p.length % 136 = 0 := by
  rw [length_bytepad_136 h]
  exact add_padding_mod (by decide) _

theorem pad_eq_self_iff {P : Bytes} {r : Nat} : pad P r = P ↔ P.length % r = 0 := by
  refine ⟨fun h => ?_, pad_of_whole_blocks⟩
  by_contra hpart
  have hlen := congrArg List.length h
  rw [pad_of_partial_block hpart, List.length_append, List.length_append, List.length_singleton] at hlen
  omega

/-- The fixed name is not empty, so `kmacxof256` takes the second branch of `cshake256` on `kmacInput` (R92). -/
theorem kmacxof256_eq_sponge {K C : Bytes} (X : Bytes) (d : Nat) (hK : 8 * K.length < encLimit)
    (hC : 8 * C.length < encLimit) :
    ∃ c k p q, encodeString C = .ok c ∧ encodeString K = .ok k ∧
      bytepad ([0x01, 0x20, 0x4B, 0x4D, 0x41, 0x43] ++ c) 136 = .ok p ∧ bytepad k 136 = .ok q ∧
      kmacxof256 K X d C = .ok (sponge (p ++ (q ++ X ++ [0x00, 0x01]) ++ [0x04]) d cap512) := by
  obtain ⟨k, q, hk, hq, hnewX⟩ := kmacInput_ok X hK
  obtain ⟨n, c, p, hn, hc, hp, hT⟩ :=
    cshakeInput_ok (q ++ X ++ [0x00, 0x01]) (N := kmacName) (lt_encLimit (by decide)) hC
  obtain rfl := Except.ok.inj (encodeString_kmacName.symm.trans hn)
  refine ⟨c, k, p, q, hc, hk, hp, hq, ?_⟩
  calc kmacxof256 K X d C = cshake256 (q ++ X ++ [0x00, 0x01]) d kmacName C := by rw [kmacxof256, hnewX]; rfl
    _ = (cshakeInput (q ++ X ++ [0x00, 0x01]) kmacName C).map (sponge · d cap512) :=
      cshake256_eq_map_sponge (.inl (List.cons_ne_nil _ _)) _ d
    _ = .ok (sponge (p ++ (q ++ X ++ [0x00, 0x01]) ++ [0x04]) d cap512) := by rw [hT]; rfl

/-- Settles O27: both `bytepad` parts are whole blocks, so `X` and the three bytes after it decide where the last block
ends. -/
theorem kmacAbsorbedLayout : Obligations.KmacAbsorbedLayout := by
  intro K X C d hK hC
  obtain ⟨c, k, p, q, hc, hk, hp, hq, hsponge⟩ :=
    kmacxof256_eq_sponge X d (bitLength_lt_encLimit hK) (bitLength_lt_encLimit hC)
  have hlen : (p ++ (q ++ X ++ [0x00, 0x01]) ++ [0x04]).length % 136 = (X.length + 3) % 136 := by
    have hpBlocks := length_bytepad_136_mod hp
    have hqBlocks := length_bytepad_136_mod hq
    simp only [List.length_append, List.length_cons, List.length_nil]
    omega
  refine ⟨c, k, _, hc, hk, ?layout, hlen, hsponge, ?corner⟩
  case layout =>
    have hz : 2 + ([0x01, 0x20, 0x4B, 0x4D, 0x41, 0x43] ++ c : Bytes).length = 8 + c.length := by
      rw [List.length_append, ← Nat.add_assoc]
      rfl
    rw [eq_of_bytepad_136 hp, eq_of_bytepad_136 hq, hz]
    simp only [zeros, List.append_assoc]
  case corner =>
    rw [pad_eq_self_iff, hlen]
    omega

end Sys2Proof.Machine
end

section
/-! The host port, one operation at a time: the lanes (R103, R104), the reading operations (R106 to R109), and all of
them on a faulted engine (R110). -/

namespace Sys2Proof.Machine

/-! ### The lanes (R103, R104) -/

theorem portHwrlane_in_range {s : State} {i : Nat} (hf : s.status.fault = false) (hi : i ≤ 24) (v : Lane) :
    portHwrlane i v s = s.setLane i v := by
  simpa [hf, hi, hi.not_gt] using portHwrlane_cases i v s

theorem portHwrlane_out_of_range {s : State} {i : Nat} (hf : s.status.fault = false) (hi : 24 < i) (v : Lane) :
    portHwrlane i v s = s.faultEntry .badPortIndex (portFaultWord opHwrlane 0 i) := by
  simpa [hf, hi, hi.not_ge] using portHwrlane_cases i v s

theorem portHrdlane_in_range {s : State} {i : Nat} (hf : s.status.fault = false) (hi : i ≤ 24) :
    portHrdlane i s = s.giveHost (.u64 (s.lane i)) := by
  simpa [hf, hi, hi.not_gt] using portHrdlane_cases i s

theorem portHrdlane_out_of_range {s : State} {i : Nat} (hf : s.status.fault = false) (hi : 24 < i) :
    portHrdlane i s = (s.faultEntry .badPortIndex (portFaultWord opHrdlane 0 i)).giveHost (.u64 0) := by
  simpa [hf, hi, hi.not_ge] using portHrdlane_cases i s

/-- Settles O45: in range a write is `setLane` and a read hands the lane over; out of range both enter the fault. -/
theorem lanePortsMoveOneLane : Obligations.LanePortsMoveOneLane := by
  intro s i v hf
  refine ⟨fun hi => ⟨?write, ?read⟩, fun hi => ⟨?writeFaults, ?readFaults⟩⟩
  case write =>
    exact ⟨s.setLane i v, congrArg Host.Outcome.next (portHwrlane_in_range hf hi v), lane_setLane_same s v (by omega),
      fun _ hj => lane_setLane_ne s v hj, rfl, rfl, rfl, rfl, rfl, rfl⟩
  case read => exact congrArg Host.Outcome.next (portHrdlane_in_range hf hi)
  case writeFaults => exact ⟨_, congrArg Host.Outcome.next (portHwrlane_out_of_range hf hi v), rfl, rfl⟩
  case readFaults => exact ⟨_, congrArg Host.Outcome.next (portHrdlane_out_of_range hf hi), rfl, rfl⟩

/-! ### The reading operations (R106 to R109) -/

theorem portHrdout_live {s : State} (hf : s.status.fault = false) :
    portHrdout s = s.giveHost (.bytes s.mem.out) := by
  simp [portHrdout, hf]

theorem portHrdout_faulted {s : State} (hf : s.status.fault = true) : portHrdout s = s.giveHost (.bytes []) := by
  simp [portHrdout, hf]

/-- Settles O46: of the four, only `HRDOUT` looks at `FAULT`. -/
theorem readingOperationsReturnState : Obligations.ReadingOperationsReturnState :=
  fun _ => ⟨fun hf => congrArg Host.Outcome.next (portHrdout_live hf), rfl, rfl, fun _ => rfl⟩

/-! ### The whole port on a faulted engine (R110) -/

theorem State.Inv.len_out_eq_zero {s : State} (hinv : s.Inv) (hf : s.status.fault = true) : s.mem.len .out = 0 := by
  obtain ⟨-, hout⟩ := hinv.faultErases hf
  exact congrArg List.length hout

/-- Settles O47: the writes and issues do nothing, and the reads of what the fault erased answer zero or empty. -/
theorem faultedPortIgnoresWrites : Obligations.FaultedPortIgnoresWrites := by
  intro s hf
  refine ⟨fun b X => congrArg Host.Outcome.next (portHwrbuf_faulted hf b X),
    fun i v => congrArg Host.Outcome.next (portHwrlane_faulted hf i v), portHissue_faulted hf,
    fun i => congrArg Host.Outcome.next (portHrdlane_faulted hf i),
    congrArg Host.Outcome.next (portHrdout_faulted hf), fun _ => rfl, ?outLength, rfl, rfl, portHreset s, rfl, rfl⟩
  case outLength =>
    intro hinv
    rw [performPort, portHrdlen, hinv.len_out_eq_zero hf]
    rfl

end Sys2Proof.Machine
end

section
/-! A step that issues a command word (R105): the command runs, and it completes or enters the fault. -/

namespace Sys2Proof

/-- The word of a command is the one that was issued (R33, R35): its row fixes every field that is no operand. -/
theorem encode_of_decode {w : Word} {i : Instr} (h : decode w = .ok i) : encode i = w := by
  obtain ⟨hs, hd⟩ | ⟨hs, hd⟩ | ⟨hs, hd⟩ | ⟨hs, hd⟩ | ⟨hs, hd⟩ | ⟨-, hd⟩ := decode_cases w <;> rw [hd] at h <;> cases h
  · obtain ⟨hop, hcap, hout⟩ := (selects_permute w).mp hs
    simpa only [encode, hop, hcap, hout] using formatK_fields w
  · obtain ⟨hop, hrounds⟩ := (selects_sponge w).mp hs
    simpa only [encode, hop, hrounds] using formatK_fields w
  · obtain ⟨hop, hrounds, hcap⟩ := (selects_shake256 w).mp hs
    simpa only [encode, hop, hrounds, hcap] using formatK_fields w
  · obtain ⟨hop, hrounds, hcap⟩ := (selects_cshake256 w).mp hs
    simpa only [encode, hop, hrounds, hcap] using formatK_fields w
  · obtain ⟨hop, hrounds, hcap⟩ := (selects_kmacxof256 w).mp hs
    simpa only [encode, hop, hrounds, hcap] using formatK_fields w

theorem eq_permute_of_row_eq {i : Instr} (h : i.row = rowPermute) : ∃ rounds, i = .permute rounds := by
  cases i with
  | permute rounds => exact ⟨rounds, rfl⟩
  | sponge | shake256 | cshake256 | kmacxof256 =>
    simp [Instr.row, rowPermute, rowSponge, rowShake256, rowCshake256, rowKmacxof256] at h

end Sys2Proof

namespace Sys2Proof.Machine

/-! ### What a command does to `STATUS` -/

theorem commandBody_ok_status {i : Instr} {s s' : State} (h : commandBody i s = .ok s') : s'.status = s.status := by
  by_cases hi : i.row = rowPermute
  · obtain ⟨r, rfl⟩ := eq_permute_of_row_eq hi
    obtain ⟨n, -, rfl⟩ := permuteBody_ok h
    rfl
  · obtain ⟨Z, -, rfl⟩ := spongeClassBody_ok hi h
    exact setBuf_status s .out Z

/-- How a command or an issue may end (R105): `DONE` is set, or `FAULT` is set and `FCMD` holds the word. -/
def CompletedOrFaulted (w : Word) (t : State) : Prop :=
  t.status.done = true ∧ t.status.fault = false ∨ t.status.done = false ∧ t.status.fault = true ∧ t.fcmd = w

theorem completedOrFaulted_faultEntry (s : State) (c : Cause) (w : Word) :
    CompletedOrFaulted w (s.faultEntry c w) := .inr ⟨rfl, rfl, rfl⟩

theorem completedOrFaulted_of_exec {i : Instr} {s t : State} (hf : s.status.fault = false)
    (h : exec i s = .next t) : CompletedOrFaulted (encode i) t := by
  obtain ⟨hf', -⟩ | ⟨-, s', hbody, rfl⟩ | ⟨-, c, -, rfl⟩ := exec_cases h
  · simp [hf] at hf'
  · refine .inl ⟨rfl, ?_⟩
    rw [setDone_status, status_setDone_fault, commandBody_ok_status hbody, hf]
  · exact completedOrFaulted_faultEntry s c _

/-! ### The issue -/

theorem isFaultEntry_faultEntry (s : State) (c : Cause) (w : Word) :
    Claims.IsFaultEntry s (s.faultEntry c w) c w :=
  ⟨rfl, rfl, lane_faultEntry s c w, rfl, fun _ hb => memory_get_set_ne s.mem [] hb, rfl, rfl, rfl⟩

theorem portHissue_of_decode_ok {w : Word} {i : Instr} {s : State} (hf : s.status.fault = false)
    (hd : decode w = .ok i) : portHissue w s = exec i s.clearDone := by
  simp [portHissue, hf, hd]

theorem portHissue_of_decode_error {w : Word} {e : DecodeError} {s : State} (hf : s.status.fault = false)
    (hd : decode w = .error e) : portHissue w s = .next (s.faultEntry .illegalCommand w) := by
  simp [portHissue, hf, hd, raiseFault_live]

theorem exists_portHissue_completedOrFaulted {s : State} (hf : s.status.fault = false) (w : Word) :
    ∃ t, portHissue w s = .next t ∧ CompletedOrFaulted w t := by
  cases hd : decode w with
  | ok i =>
    obtain ⟨t, ht⟩ := exec_total i s.clearDone
    refine ⟨t, (portHissue_of_decode_ok hf hd).trans ht, ?_⟩
    rw [← encode_of_decode hd]
    exact completedOrFaulted_of_exec (s := s.clearDone) hf ht
  | error e => exact ⟨_, portHissue_of_decode_error hf hd, completedOrFaulted_faultEntry s _ w⟩

/-- Settles O48: the step is `HISSUE` on the state without the operation, and the word recorded is the one decoded. -/
theorem stepRunsIssuedCommand : Obligations.StepRunsIssuedCommand := by
  intro s w rest hport hf
  have hstep : step s = portHissue w { s with port := rest } := step_port hport
  rw [hstep]
  exact ⟨fun _ hd => portHissue_of_decode_ok hf hd,
    fun _ hd => ⟨_, portHissue_of_decode_error hf hd, isFaultEntry_faultEntry _ _ _⟩,
    exists_portHissue_completedOrFaulted (s := { s with port := rest }) hf w⟩

end Sys2Proof.Machine
end

section
/-! How every issue and every command ends: with the first fault in the order of R139, or completed (R105, R139). -/

namespace Sys2Proof.Machine

open Sys2Proof.Claims

/-! ### The first fault in the order of R139 -/

/-- What is wrong with a command that reports each cause (the table of R131). The causes that no command raises have no
such test: `HISSUE` and the port operations raise them, or nothing does. -/
def FailsTest (i : Instr) (s : State) : Cause → Prop
  | .roundsRange => ∃ r, i = .permute r ∧ 24 < r.toNat
  | .badCapacity => ∃ c o, i = .sponge c o ∧ ¬(c.toNat % 8 = 0 ∧ c.toNat ≤ 1592)
  | .outlenNotByteMultiple => ∃ o, outbitsOf i = some o ∧ o.toNat % 8 ≠ 0
  | .outlenTooLong => ∃ o, outbitsOf i = some o ∧ s.config.outMax.val < o.toNat / 8
  | .encodeDomain => ¬lengthsEncodable i s.mem
  | .illegalCommand | .badPadWidth | .bufferOverflow | .badPortIndex => False

/-- A command reports a fault only for a test that it fails. -/
theorem failsTest_of_firstFault {i : Instr} {s : State} {c : Cause} (h : firstFault i s = some c) :
    FailsTest i s c := by
  unfold firstFault at h
  split_ifs at h with hrounds hcap hbyte hlong hlen <;> cases h
  · exact hrounds
  · exact hcap
  · exact hbyte
  · exact hlong
  · exact hlen

/-- The capacity test passes (R134): every command but `SPONGE` has no capacity to test. -/
def CapacityLegal : Instr → Prop
  | .sponge cap _ => cap.toNat % 8 = 0 ∧ cap.toNat ≤ 1592
  | _ => True

theorem capacityLegal_sponge {cap : BitVec 16} (h : cap.toNat % 8 = 0 ∧ cap.toNat ≤ 1592) (o : BitVec 32) :
    CapacityLegal (.sponge cap o) := h

theorem capacityLegal_shake256 (o : BitVec 32) : CapacityLegal (.shake256 o) := trivial

theorem capacityLegal_cshake256 (o : BitVec 32) : CapacityLegal (.cshake256 o) := trivial

theorem capacityLegal_kmacxof256 (o : BitVec 32) : CapacityLegal (.kmacxof256 o) := trivial

theorem capacityLegal_iff {i : Instr} :
    CapacityLegal i ↔ ∀ c o, i = .sponge c o → c.toNat % 8 = 0 ∧ c.toNat ≤ 1592 := by
  cases i <;> simp [CapacityLegal]

theorem firstFault_permute_illegal {r : BitVec 8} (h : 24 < r.toNat) (s : State) :
    firstFault (.permute r) s = some .roundsRange := if_pos ⟨r, rfl, h⟩

theorem firstFault_permute_legal {r : BitVec 8} (h : r.toNat ≤ 24) (s : State) :
    firstFault (.permute r) s = none := by
  simp [firstFault, outbitsOf, lengthsEncodable, buffersEncoded, h]

theorem firstFault_sponge_illegal {cap : BitVec 16} (h : ¬(cap.toNat % 8 = 0 ∧ cap.toNat ≤ 1592)) (o : BitVec 32)
    (s : State) : firstFault (.sponge cap o) s = some .badCapacity := by
  rw [firstFault, if_neg (by simp), if_pos ⟨cap, o, rfl, h⟩]

section
variable {i : Instr} {o : BitVec 32} (hcap : CapacityLegal i) (ho : outbitsOf i = some o)
include hcap ho

/-- Past the capacity test, a sponge-class command has the tests of its output length and of its buffers left. -/
theorem firstFault_of_capacityLegal (s : State) :
    firstFault i s = open Classical in
      if o.toNat % 8 ≠ 0 then some .outlenNotByteMultiple
      else if s.config.outMax.val < o.toNat / 8 then some .outlenTooLong
      else if ¬lengthsEncodable i s.mem then some .encodeDomain
      else none := by
  have hrounds : ¬∃ r, i = .permute r ∧ 24 < r.toNat := by
    rintro ⟨r, rfl, -⟩
    cases ho
  have hcap' : ¬∃ c o, i = .sponge c o ∧ ¬(c.toNat % 8 = 0 ∧ c.toNat ≤ 1592) := by
    rintro ⟨c, o, hi, hillegal⟩
    exact hillegal (capacityLegal_iff.mp hcap c o hi)
  rw [firstFault, if_neg hrounds, if_neg hcap']
  simp only [ho, Option.some.injEq, exists_eq_left']

theorem firstFault_of_outbitsOperand_error {s : State} {c : Cause} (h : outbitsOperand s.config o = .error c) :
    firstFault i s = some c := by
  rw [firstFault_of_capacityLegal hcap ho]
  obtain ⟨rfl, h8⟩ | ⟨rfl, h8, hlong⟩ := outbitsOperand_error h
  · exact if_pos h8
  · rw [if_neg (not_not_intro h8), if_pos hlong]

theorem firstFault_of_outbitsOperand_ok {s : State} {d : Nat} (h : outbitsOperand s.config o = .ok d) :
    firstFault i s = open Classical in if lengthsEncodable i s.mem then none else some .encodeDomain := by
  obtain ⟨-, h8, hfits⟩ := outbitsOperand_ok h
  rw [firstFault_of_capacityLegal hcap ho, if_neg (not_not_intro h8), if_neg hfits.not_gt, ite_not]

end

/-! ### The checks of the commands follow that order -/

theorem lengthsEncodable_cshake256 {o : BitVec 32} {m : Memory} :
    lengthsEncodable (.cshake256 o) m ↔ 8 * m.name.length < encLimit ∧ 8 * m.cust.length < encLimit := by
  simp [lengthsEncodable, buffersEncoded, Memory.len, Memory.get]

theorem lengthsEncodable_kmacxof256 {o : BitVec 32} {m : Memory} :
    lengthsEncodable (.kmacxof256 o) m ↔ 8 * m.key.length < encLimit ∧ 8 * m.cust.length < encLimit := by
  simp [lengthsEncodable, buffersEncoded, Memory.len, Memory.get]

/-- The fault a command's checks raise is the first in the order of R139. -/
theorem firstFault_of_commandBody_error {i : Instr} {s : State} {c : Cause} (h : commandBody i s = .error c) :
    firstFault i s = some c := by
  cases i with
  | permute r =>
    obtain ⟨rfl, hr⟩ := permuteBody_error h
    exact firstFault_permute_illegal hr s
  | sponge cap o =>
    obtain ⟨rfl, hcap⟩ | ⟨h8, hle, hout⟩ := spongeBody_error h
    · exact firstFault_sponge_illegal hcap o s
    · exact firstFault_of_outbitsOperand_error (capacityLegal_sponge ⟨h8, hle⟩ o) rfl hout
  | shake256 o => exact firstFault_of_outbitsOperand_error (capacityLegal_shake256 o) rfl (shake256Body_error h)
  | cshake256 o =>
    obtain hout | ⟨rfl, ⟨d, hd⟩, hlong⟩ := cshake256Body_error h
    · exact firstFault_of_outbitsOperand_error (capacityLegal_cshake256 o) rfl hout
    · rw [firstFault_of_outbitsOperand_ok (capacityLegal_cshake256 o) rfl hd, if_neg]
      rw [lengthsEncodable_cshake256]
      omega
  | kmacxof256 o =>
    obtain hout | ⟨rfl, ⟨d, hd⟩, hlong⟩ := kmacxof256Body_error h
    · exact firstFault_of_outbitsOperand_error (capacityLegal_kmacxof256 o) rfl hout
    · rw [firstFault_of_outbitsOperand_ok (capacityLegal_kmacxof256 o) rfl hd, if_neg]
      rw [lengthsEncodable_kmacxof256]
      omega

/-- A command whose checks pass fails no test of R139. -/
theorem firstFault_of_commandBody_ok {i : Instr} {s s' : State} (h : commandBody i s = .ok s') :
    firstFault i s = none := by
  cases i with
  | permute r =>
    obtain ⟨n, hn, -⟩ := permuteBody_ok h
    by_cases hr : r.toNat ≤ 24
    · exact firstFault_permute_legal hr s
    · rw [roundsOperand_illegal (not_le.mp hr)] at hn
      cases hn
  | sponge cap o =>
    obtain ⟨c, hc, h⟩ := bind_ok.mp h
    obtain ⟨d, hd, -⟩ := bind_ok.mp h
    by_cases hcap : cap.toNat % 8 = 0 ∧ cap.toNat ≤ 1592
    · rw [firstFault_of_outbitsOperand_ok (capacityLegal_sponge hcap o) rfl hd, if_pos nofun]
    · rw [capOperand_illegal hcap] at hc
      cases hc
  | shake256 o =>
    obtain ⟨d, hd, -⟩ := bind_ok.mp h
    rw [firstFault_of_outbitsOperand_ok (capacityLegal_shake256 o) rfl hd, if_pos nofun]
  | cshake256 o =>
    obtain ⟨d, hd, h⟩ := bind_ok.mp h
    obtain ⟨_, hn, h⟩ := bind_ok.mp h
    obtain ⟨_, hc, -⟩ := bind_ok.mp h
    rw [firstFault_of_outbitsOperand_ok (capacityLegal_cshake256 o) rfl hd,
      if_pos (lengthsEncodable_cshake256.mpr ⟨encodable_ok hn, encodable_ok hc⟩)]
  | kmacxof256 o =>
    obtain ⟨d, hd, h⟩ := bind_ok.mp h
    obtain ⟨_, hk, h⟩ := bind_ok.mp h
    obtain ⟨_, hc, -⟩ := bind_ok.mp h
    rw [firstFault_of_outbitsOperand_ok (capacityLegal_kmacxof256 o) rfl hd,
      if_pos (lengthsEncodable_kmacxof256.mpr ⟨encodable_ok hk, encodable_ok hc⟩)]

/-! ### How a command ends on a live engine -/

section
variable {i : Instr} {s t : State} (hf : s.status.fault = false) (h : exec i s = .next t)
include hf h

/-- A command on a live engine completes when no test fails, and else does nothing but enter the first fault. -/
theorem exec_live_cases :
    (firstFault i s = none ∧ t.status = s.status.setDone) ∨
    ∃ c, firstFault i s = some c ∧ IsFaultEntry s t c (encode i) := by
  obtain ⟨hf', -⟩ | ⟨-, s', hbody, rfl⟩ | ⟨-, c, hbody, rfl⟩ := exec_cases h
  · rw [hf] at hf'
    cases hf'
  · exact .inl ⟨firstFault_of_commandBody_ok hbody, congrArg Status.setDone (commandBody_ok_status hbody)⟩
  · exact .inr ⟨c, firstFault_of_commandBody_error hbody, isFaultEntry_faultEntry s c _⟩

theorem isFaultEntry_of_firstFault {c : Cause} (hc : firstFault i s = some c) : IsFaultEntry s t c (encode i) := by
  obtain ⟨hnone, -⟩ | ⟨c', hc', hentry⟩ := exec_live_cases hf h
  · cases hc.symm.trans hnone
  · cases hc.symm.trans hc'
    exact hentry

theorem status_of_firstFault_none (hc : firstFault i s = none) : t.status = s.status.setDone := by
  obtain ⟨-, hst⟩ | ⟨c, hc', -⟩ := exec_live_cases hf h
  · exact hst
  · cases hc.symm.trans hc'

theorem exists_isFaultEntry_of_fault (hft : t.status.fault = true) :
    ∃ c, firstFault i s = some c ∧ IsFaultEntry s t c (encode i) := by
  refine (exec_live_cases hf h).resolve_left ?_
  rintro ⟨-, hst⟩
  rw [hst, status_setDone_fault, hf] at hft
  cases hft

/-- A command that ends faulted with a cause failed the test of that cause: the causes have distinct codes (R131). -/
theorem failsTest_of_exec {c : Cause} (hc : t.status.fault = true ∧ t.status.cause = c.code) : FailsTest i s c := by
  obtain ⟨hft, hcause⟩ := hc
  obtain ⟨c', hc', hst, -⟩ := exists_isFaultEntry_of_fault hf h hft
  rw [hst] at hcause
  obtain rfl := cause_code_injective hcause
  exact failsTest_of_firstFault hc'

end

/-! ### How an issue ends on a live engine -/

/-- That an issue clears `DONE` first leaves no trace: no test reads it, and both endings write it. -/
theorem exists_portHissue_of_decode_ok {w : Word} {i : Instr} {s : State} (hf : s.status.fault = false)
    (hd : decode w = .ok i) :
    ∃ t, portHissue w s = .next t ∧
      ((firstFault i s = none ∧ t.status = s.status.setDone) ∨
        ∃ c, firstFault i s = some c ∧ IsFaultEntry s t c w) := by
  obtain ⟨t, ht⟩ := exec_total i s.clearDone
  refine ⟨t, (portHissue_of_decode_ok hf hd).trans ht, ?_⟩
  have hcases := exec_live_cases (s := s.clearDone) hf ht
  rwa [encode_of_decode hd] at hcases

theorem exists_portHissue_of_decode_error {w : Word} {e : DecodeError} {s : State} (hf : s.status.fault = false)
    (hd : decode w = .error e) : ∃ t, portHissue w s = .next t ∧ IsFaultEntry s t .illegalCommand w :=
  ⟨_, portHissue_of_decode_error hf hd, isFaultEntry_faultEntry s _ w⟩

theorem exists_portHissue_cause {w : Word} {i : Instr} {s : State} {c : Cause} (hf : s.status.fault = false)
    (hd : decode w = .ok i) (hc : firstFault i s = some c) :
    ∃ t, portHissue w s = .next t ∧ t.status.cause = c.code := by
  obtain ⟨t, ht, ⟨hnone, -⟩ | ⟨c', hc', hst, -⟩⟩ := exists_portHissue_of_decode_ok hf hd
  · cases hc.symm.trans hnone
  · cases hc.symm.trans hc'
    exact ⟨t, ht, congrArg Status.cause hst⟩

/-- Settles O37: the checks of every command run in the order of the rule, after the decoder. -/
theorem firstFaultIsReported : Obligations.FirstFaultIsReported := by
  refine ⟨fun w s hf => ?issue, fun s hf => ⟨?capacity, ?byteMultiple, ?illegal⟩⟩
  case issue =>
    cases hd : decode w with
    | error e => exact exists_portHissue_of_decode_error hf hd
    | ok i =>
      obtain ⟨t, ht, ⟨hnone, hst⟩ | ⟨c, hc, hentry⟩⟩ := exists_portHissue_of_decode_ok hf hd
      · refine ⟨t, ht, ?_⟩
        simp only [hnone, hst]
        exact ⟨rfl, hf⟩
      · refine ⟨t, ht, ?_⟩
        simp only [hc]
        exact hentry
  case capacity =>
    exact exists_portHissue_cause (i := .sponge 0x0201 7) hf (by decide) (firstFault_sponge_illegal (by decide) _ s)
  case byteMultiple =>
    have hcap : CapacityLegal (.sponge 0x0200 7) := capacityLegal_sponge (by decide) _
    exact exists_portHissue_cause hf (by decide)
      (firstFault_of_outbitsOperand_error hcap rfl (outbitsOperand_partial _ (by decide)))
  case illegal =>
    have hd : decode 0x0201020100000007 = .error .unusedFieldNotZero := by decide
    exact ⟨_, portHissue_of_decode_error hf hd, rfl⟩

end Sys2Proof.Machine
end

section
/-! The faults of the commands, cause by cause (R132 to R137), from the order of R139. -/

namespace Sys2Proof.Machine

open Sys2Proof.Claims

/-! ### Illegal words (R132) -/

/-- The legal words field by field: an assigned `op`, and zero in the fields its command does not use (R36). -/
def LegalFields (w : Word) : Prop :=
  opField w = 1 ∧ capField w = 0 ∧ outbitsField w = 0 ∨ opField w = 2 ∧ roundsField w = 0 ∨
    (opField w = 3 ∨ opField w = 4 ∨ opField w = 5) ∧ roundsField w = 0 ∧ capField w = 0

theorem legalFields_iff_selects (w : Word) : LegalFields w ↔ ∃ r ∈ opRows, r.selects w = true := by
  simp only [opRows, List.exists_mem_cons_iff, List.not_mem_nil, false_and, exists_false, or_false, selects_permute,
    selects_sponge, selects_shake256, selects_cshake256, selects_kmacxof256, LegalFields, or_and_right]

theorem legalFields_iff_decode (w : Word) : LegalFields w ↔ ∃ i, decode w = .ok i := by
  rw [legalFields_iff_selects]
  constructor
  · rintro ⟨r, hr, hs⟩
    exact exists_decode_of_selects hr hs
  · rintro ⟨i, hd⟩
    exact ⟨i.row, row_mem_opRows i, row_selects_of_decode hd⟩

/-- No command fails a test with the cause of an illegal word. -/
theorem code_ne_illegalCommand_of_firstFault {i : Instr} {s : State} {c : Cause} (h : firstFault i s = some c) :
    c.code ≠ Cause.illegalCommand.code := by
  intro hcode
  obtain rfl := cause_code_injective hcode
  exact failsTest_of_firstFault h

theorem exists_portHissue_legal {w : Word} {s : State} (hf : s.status.fault = false) (hcause : s.status.cause = 0)
    (hw : LegalFields w) : ∃ t, portHissue w s = .next t ∧ t.status.cause ≠ 0x01 := by
  obtain ⟨i, hd⟩ := (legalFields_iff_decode w).mp hw
  obtain ⟨t, ht, ⟨-, hst⟩ | ⟨c, hc, hst, -⟩⟩ := exists_portHissue_of_decode_ok hf hd
  · refine ⟨t, ht, ?_⟩
    rw [hst, status_setDone_cause, hcause]
    decide
  · refine ⟨t, ht, ?_⟩
    rw [hst]
    exact code_ne_illegalCommand_of_firstFault hc

theorem exists_portHissue_illegal {w : Word} {s : State} (hf : s.status.fault = false) (hw : ¬LegalFields w) :
    ∃ t, portHissue w s = .next t ∧ IsFaultEntry s t .illegalCommand w := by
  cases hd : decode w with
  | ok i => exact absurd ((legalFields_iff_decode w).mpr ⟨i, hd⟩) hw
  | error e => exact exists_portHissue_of_decode_error hf hd

/-- Settles O5: the decoder refuses the words whose fields are not legal, and a command reports another cause. -/
theorem illegalWordFaults : Obligations.IllegalWordFaults := by
  intro s w hf hcause
  by_cases hw : LegalFields w
  · obtain ⟨t, ht, hne⟩ := exists_portHissue_legal hf hcause hw
    exact ⟨t, ht, (if_pos hw).mpr hne⟩
  · obtain ⟨t, ht, hentry⟩ := exists_portHissue_illegal hf hw
    exact ⟨t, ht, (if_neg hw).mpr hentry⟩

/-! ### `ROUNDS_RANGE` (R133) -/

theorem commandBody_permute_legal {r : BitVec 8} (h : r.toNat ≤ 24) (s : State) :
    commandBody (.permute r) s = .ok { s with lanes := keccakP s.lanes ⟨r.toNat, by omega⟩ } := by
  rw [commandBody, permuteBody, roundsOperand_legal h]
  rfl

/-- Settles O28: the only test of `PERMUTE` is that of its rounds. -/
theorem permuteCompletes : Obligations.PermuteCompletes := by
  intro r s hf
  refine ⟨fun h => ?completes, fun h => ?faults⟩
  case completes =>
    have hst : s.status.setDone = { done := true, fault := false, cause := s.status.cause } := by
      rw [Status.setDone, hf]
    rw [exec_eq_runCommand, runCommand_ok hf (commandBody_permute_legal h s), ← hst]
    rfl
  case faults =>
    obtain ⟨t, ht⟩ := exec_total (.permute r) s
    exact ⟨t, ht, isFaultEntry_of_firstFault hf ht (firstFault_permute_illegal h s)⟩

/-! ### `BAD_CAPACITY` (R134) -/

/-- Settles O38: the test of the capacity comes first for `SPONGE`, and no other command has it. -/
theorem badCapacityFault : Obligations.BadCapacityFault := by
  refine ⟨fun cap o s hf => ?sponge, fun i s t hf hrow ht hbad => ?others⟩
  case sponge =>
    obtain ⟨t, ht⟩ := exec_total (.sponge cap o) s
    refine ⟨t, ht, ?_⟩
    split_ifs with hcap
    · exact isFaultEntry_of_firstFault hf ht (firstFault_sponge_illegal (by omega) o s)
    · intro hbad
      obtain ⟨c, o', ⟨⟩, hillegal⟩ := failsTest_of_exec hf ht hbad
      omega
  case others =>
    obtain ⟨c, o, rfl, -⟩ := failsTest_of_exec hf ht hbad
    exact hrow rfl

/-! ### The output length (R135) -/

/-- With the suggested `OUT_MAX`, every value of the 32-bit field `outbits` fits. -/
theorem not_outlenTooLong {o : BitVec 32} {c : Config} (hmax : c.outMax.val = 536870911) :
    ¬c.outMax.val < o.toNat / 8 := by
  have := o.isLt
  omega

/-- Settles O39: past the capacity, the two tests of the output length come next, and they are of `outbits`. -/
theorem outputLengthFaults : Obligations.OutputLengthFaults := by
  refine ⟨fun i o s hf ho hcap => ?lengths, fun i s t hf hmax ht htooLong => ?suggested⟩
  case lengths =>
    have herror {c : Cause} := firstFault_of_outbitsOperand_error (s := s) (c := c) (capacityLegal_iff.mpr hcap) ho
    obtain ⟨t, ht⟩ := exec_total i s
    refine ⟨t, ht, fun h8 => ?byteMultiple, fun h8 hlong => ?tooLong, ?none⟩
    case byteMultiple => exact isFaultEntry_of_firstFault hf ht (herror (outbitsOperand_partial _ h8))
    case tooLong => exact isFaultEntry_of_firstFault hf ht (herror (outbitsOperand_long h8 hlong))
    case none =>
      rintro rfl ⟨hft, hcause | hcause⟩
      · obtain ⟨o, ho', h8⟩ := failsTest_of_exec (c := .outlenNotByteMultiple) hf ht ⟨hft, hcause⟩
        cases ho.symm.trans ho'
        exact h8 rfl
      · obtain ⟨o, ho', hlong⟩ := failsTest_of_exec (c := .outlenTooLong) hf ht ⟨hft, hcause⟩
        cases ho.symm.trans ho'
        exact Nat.not_lt_zero _ hlong
  case suggested =>
    obtain ⟨o, -, hlong⟩ := failsTest_of_exec hf ht htooLong
    exact not_outlenTooLong hmax hlong

/-! ### `ENCODE_DOMAIN` and `BAD_PAD_WIDTH` (R137) -/

theorem lengthsEncodable_iff {i : Instr} {m : Memory} :
    lengthsEncodable i m ↔ ∀ b ∈ buffersEncoded i, 8 * m.len b < 2 ^ 2040 := by
  rw [two_pow_2040, lengthsEncodable]

theorem capacityLegal_of_wellFormed {i : Instr} (h : i.wellFormed = true) : CapacityLegal i := by
  cases i with
  | sponge cap o =>
    simp only [Instr.wellFormed, capLegal, Bool.and_eq_true, decide_eq_true_eq] at h
    exact h.1
  | permute | shake256 | cshake256 | kmacxof256 => trivial

/-- Past the earlier checks, a sponge-class command has the test of its buffers left. -/
theorem firstFault_of_outputFits {i : Instr} {s : State} (hi : spongeClass i) (hwf : i.wellFormed = true)
    (hout : outputFits i s.config) :
    firstFault i s = open Classical in if lengthsEncodable i s.mem then none else some .encodeDomain := by
  obtain ⟨o, ho⟩ := Option.isSome_iff_exists.mp hi
  obtain ⟨h8, hfits⟩ := hout o ho
  exact firstFault_of_outbitsOperand_ok (capacityLegal_of_wellFormed hwf) ho (outbitsOperand_legal h8 hfits)

theorem ne_out_of_mem_buffersEncoded {i : Instr} {b : BufName} (h : b ∈ buffersEncoded i) : b ≠ .out := by
  rintro rfl
  cases i <;> simp [buffersEncoded] at h

theorem bufLimit_of_ne_out {b : BufName} (h : b ≠ .out) (c : Config) : bufLimit c b = c.bufMax := by
  cases b with
  | out => exact absurd rfl h
  | inp | key | name | cust => rfl

/-- Below `2^2037` bytes no input buffer reaches the bound of the length encodings (R137). -/
theorem lengthsEncodable_of_bufMax {c : Config} {m : Memory} {n : Nat} (i : Instr) (hmax : c.bufMax = some n)
    (hn : n < 2 ^ 2037) (hwf : m.wf c = true) : lengthsEncodable i m := by
  intro b hb
  have hlen := (memory_wf_iff c m).mp hwf b
  rw [bufLimit_of_ne_out (ne_out_of_mem_buffersEncoded hb), hmax] at hlen
  exact bitLength_lt_encLimit ((of_decide_eq_true hlen).trans_lt hn)

/-- Settles O40: the test of the encoded buffers is the last one, and no test has the cause of a bad pad width. -/
theorem encodeDomainFault : Obligations.EncodeDomainFault := by
  refine ⟨fun i s hf hi hwf hout => ?domain, fun i s t m hf hmax hm hwf ht hdom => ?unreachable, bytepad_zero,
    fun i s t hf ht hbad => failsTest_of_exec hf ht hbad⟩
  case domain =>
    have hfirst := firstFault_of_outputFits hi hwf hout
    obtain ⟨t, ht⟩ := exec_total i s
    refine ⟨t, ht, ?tooLong, fun hshort => ?fits⟩
    case tooLong =>
      rintro ⟨b, hb, hlong⟩
      rw [if_neg fun henc => (lengthsEncodable_iff.mp henc b hb).not_ge hlong] at hfirst
      exact isFaultEntry_of_firstFault hf ht hfirst
    case fits =>
      rw [if_pos (lengthsEncodable_iff.mpr hshort)] at hfirst
      rw [status_of_firstFault_none hf ht hfirst, status_setDone_fault, hf]
  case unreachable => exact failsTest_of_exec hf ht hdom (lengthsEncodable_of_bufMax i hmax hm hwf)

end Sys2Proof.Machine
end

section
/-! The fault entry and the faulted engine (R136, R141), and the faults of the port (R138). -/

namespace Sys2Proof.Machine

open Sys2Proof.Claims

/-! ### The fault entry (R136) -/

theorem raiseFault_fault (s : State) (c : Cause) (w : Word) : (s.raiseFault c w).status.fault = true := by
  cases hf : s.status.fault with
  | true => rwa [raiseFault_faulted hf]
  | false => rw [raiseFault_live hf, faultEntry_status, status_faulted_fault]

theorem isFaultEntry_raiseFault {s : State} (hf : s.status.fault = false) (c : Cause) (w : Word) :
    IsFaultEntry s (s.raiseFault c w) c w := by
  rw [raiseFault_live hf]
  exact isFaultEntry_faultEntry s c w

/-- Settles O36: the engine is faulted after the entry, and a command that faults is the entry alone. -/
theorem faultEntryZeroisesAndRecords : Obligations.FaultEntryZeroisesAndRecords := by
  refine ⟨fun s c w hf => ?entry, fun i s t hf ht hft => ?command⟩
  case entry =>
    have hfaulted := raiseFault_fault s c w
    exact ⟨isFaultEntry_raiseFault hf c w, raiseFault_faulted hfaulted,
      fun b X => congrArg Host.Outcome.next (portHwrbuf_faulted hfaulted b X),
      fun i v => congrArg Host.Outcome.next (portHwrlane_faulted hfaulted i v), portHissue_faulted hfaulted⟩
  case command =>
    obtain ⟨c, -, hentry⟩ := exists_isFaultEntry_of_fault hf ht hft
    exact ⟨c, hentry⟩

/-! ### Leaving the faulted state (R141) -/

/-- Settles O53: on a faulted engine a port operation other than `HRESET` does nothing or hands a value to the host. -/
theorem onlyResetLeavesFault : Obligations.OnlyResetLeavesFault := by
  refine ⟨fun s t hf ht hop => ?faulted, fun s rest hport => ?reset⟩
  case faulted =>
    cases hport : s.port with
    | nil =>
      rw [step_idle hport] at ht
      cases ht
      exact ⟨rfl, rfl, rfl, rfl⟩
    | cons op rest =>
      rw [step_port hport] at ht
      have hne : op ≠ .hreset := by
        rintro rfl
        exact hop (by rw [hport, List.head?_cons])
      obtain rfl | ⟨v, rfl⟩ := performPort_faulted (s := { s with port := rest }) hf ht hne
      all_goals exact ⟨rfl, rfl, rfl, rfl⟩
  case reset => exact ⟨_, step_port hport, rfl, rfl, rfl, rfl⟩

/-! ### The faults of the port (R138) -/

theorem portHwrbuf_not_writable {s : State} {b : Option BufName} (hf : s.status.fault = false)
    (hb : b = none ∨ b = some .out) (X : Bytes) :
    portHwrbuf b X s = s.faultEntry .badPortIndex (portFaultWord opHwrbuf (bufNumber b) X.length) := by
  obtain ⟨hf', -⟩ | ⟨-, -, h⟩ | ⟨-, n, rfl, hn, -⟩ | ⟨-, n, rfl, hn, -⟩ := portHwrbuf_cases b X s
  · cases hf.symm.trans hf'
  · exact h
  all_goals simp [hn] at hb

theorem portHwrbuf_overflow {s : State} {b : BufName} {X : Bytes} (hf : s.status.fault = false) (hb : b ≠ .out)
    (hX : withinLimit X.length s.config.bufMax = false) :
    portHwrbuf (some b) X s = s.faultEntry .bufferOverflow (portFaultWord opHwrbuf (bufNumber (some b)) X.length) := by
  simpa [hf, hb, hX] using portHwrbuf_cases (some b) X s

theorem portHwrbuf_fits {s : State} {b : BufName} {X : Bytes} (hf : s.status.fault = false) (hb : b ≠ .out)
    (hX : withinLimit X.length s.config.bufMax = true) : portHwrbuf (some b) X s = s.setBuf b X := by
  simpa [hf, hb, hX] using portHwrbuf_cases (some b) X s

/-- Settles O41: each port fault is the fault entry with its cause, and the read hands over zero after it. -/
theorem portFaultsAreRecorded : Obligations.PortFaultsAreRecorded := by
  intro s hf
  refine ⟨fun b X m hb hmax hlong => ?overflow, fun b X hb _ => ?notWritable, fun i v hi => ?laneWrite,
    fun i hi => ?laneRead, fun b X hmax hb => ?unbounded⟩
  case overflow =>
    have hX : withinLimit X.length s.config.bufMax = false := by simp [withinLimit, hmax, hlong]
    refine ⟨_, congrArg Host.Outcome.next (portHwrbuf_overflow hf hb hX), ?_⟩
    cases b with
    | out => exact absurd rfl hb
    | inp | key | name | cust => exact isFaultEntry_faultEntry s _ _
  case notWritable =>
    refine ⟨_, congrArg Host.Outcome.next (portHwrbuf_not_writable hf hb X), ?_⟩
    obtain rfl | rfl := hb <;> exact isFaultEntry_faultEntry s _ _
  case laneWrite =>
    exact ⟨_, congrArg Host.Outcome.next (portHwrlane_out_of_range hf hi v), isFaultEntry_faultEntry s _ _⟩
  case laneRead =>
    exact ⟨_, congrArg Host.Outcome.next (portHrdlane_out_of_range hf hi), isFaultEntry_faultEntry s _ _⟩
  case unbounded =>
    have hX : withinLimit X.length s.config.bufMax = true := by rw [hmax, withinLimit]
    exact ⟨_, congrArg Host.Outcome.next (portHwrbuf_fits hf hb hX), setBuf_status s b X⟩

end Sys2Proof.Machine
end

section
/-! Decoder and encoder are inverse to each other (R33, R35), and the assembler's words are the encoder's (R38). -/

namespace Sys2Proof

/-! ### The row that selects a word decides what it decodes to -/

theorem not_selects_of_selects {r : OpRow} {w : Word} (h : r.selects w = true) (r' : OpRow)
    (hr : r ∈ opRows ∧ r' ∈ opRows ∧ r ≠ r') : ¬r'.selects w = true := by
  obtain ⟨hr, hr', hne⟩ := hr
  exact fun h' => hne (row_eq_of_selects hr hr' h h')

theorem decode_of_selects_permute {w : Word} (h : rowPermute.selects w = true) :
    decode w = .ok (.permute (roundsField w)) := if_pos h

theorem decode_of_selects_sponge {w : Word} (h : rowSponge.selects w = true) :
    decode w = .ok (.sponge (capField w) (outbitsField w)) := by
  rw [decode, if_neg (not_selects_of_selects h rowPermute (by decide)), if_pos h]

theorem decode_of_selects_shake256 {w : Word} (h : rowShake256.selects w = true) :
    decode w = .ok (.shake256 (outbitsField w)) := by
  rw [decode, if_neg (not_selects_of_selects h rowPermute (by decide)),
    if_neg (not_selects_of_selects h rowSponge (by decide)), if_pos h]

theorem decode_of_selects_cshake256 {w : Word} (h : rowCshake256.selects w = true) :
    decode w = .ok (.cshake256 (outbitsField w)) := by
  rw [decode, if_neg (not_selects_of_selects h rowPermute (by decide)),
    if_neg (not_selects_of_selects h rowSponge (by decide)),
    if_neg (not_selects_of_selects h rowShake256 (by decide)), if_pos h]

theorem decode_of_selects_kmacxof256 {w : Word} (h : rowKmacxof256.selects w = true) :
    decode w = .ok (.kmacxof256 (outbitsField w)) := by
  rw [decode, if_neg (not_selects_of_selects h rowPermute (by decide)),
    if_neg (not_selects_of_selects h rowSponge (by decide)),
    if_neg (not_selects_of_selects h rowShake256 (by decide)),
    if_neg (not_selects_of_selects h rowCshake256 (by decide)), if_pos h]

/-! ### Both ways round -/

theorem decode_encode (i : Instr) : decode (encode i) = .ok i := by
  cases i with
  | permute r =>
    rw [decode_of_selects_permute (Laws.SelectedByOwnRow.permute r), encode, roundsField_formatK]
  | sponge c o =>
    rw [decode_of_selects_sponge (Laws.SelectedByOwnRow.sponge c o), encode, capField_formatK, outbitsField_formatK]
  | shake256 o =>
    rw [decode_of_selects_shake256 (Laws.SelectedByOwnRow.shake256 o), encode, outbitsField_formatK]
  | cshake256 o =>
    rw [decode_of_selects_cshake256 (Laws.SelectedByOwnRow.cshake256 o), encode, outbitsField_formatK]
  | kmacxof256 o =>
    rw [decode_of_selects_kmacxof256 (Laws.SelectedByOwnRow.kmacxof256 o), encode, outbitsField_formatK]

/-- Settles O2: the command's own row selects its word, and the row's operand fields hold the operands. -/
theorem decodeOfEncodeIsCommand : Obligations.DecodeOfEncodeIsCommand := decode_encode

/-- Settles O3: the row that selects the word fixes every field that is no operand. -/
theorem encodeOfDecodeIsWord : Obligations.EncodeOfDecodeIsWord := fun _ _ => encode_of_decode

/-- Settles O1, by running the decoder on the eight words. -/
theorem exampleWordsDecode : Obligations.ExampleWordsDecode := by
  unfold Obligations.ExampleWordsDecode
  decide

/-! ### The words of the assembler (R38) -/

/-- Appending below is adding: the two parts share no bit. -/
theorem toNat_append_eq_add {m n : Nat} (x : BitVec m) (y : BitVec n) :
    (x ++ y).toNat = x.toNat * 2 ^ n + y.toNat := by
  rw [BitVec.toNat_append, ← Nat.shiftLeft_add_eq_or_of_lt y.isLt, Nat.shiftLeft_eq]

/-- The word of a command, as the sum of its fields at their places (R33). -/
theorem formatK_eq_ofNat (op : BitVec 8) {r c o : Nat} (hr : r ≤ 255) (hc : c ≤ 65535) (ho : o ≤ 4294967295) :
    formatK op (r : BitVec 8) (c : BitVec 16) (o : BitVec 32) =
      BitVec.ofNat 64 (op.toNat * 2 ^ 56 + r * 2 ^ 48 + c * 2 ^ 32 + o) := by
  have hop := op.isLt
  apply BitVec.eq_of_toNat_eq
  simp only [formatK, toNat_append_eq_add, BitVec.natCast_eq_ofNat, BitVec.toNat_ofNat]
  omega

theorem encode_permute_eq_ofNat {r : Nat} (h : r ≤ 255) :
    encode (.permute r) = BitVec.ofNat 64 (0x0100000000000000 + r * 2 ^ 48) := by
  simpa [encode] using formatK_eq_ofNat 0x01 h (Nat.zero_le _) (Nat.zero_le _)

theorem encode_sponge_eq_ofNat {c o : Nat} (h : c ≤ 65535 ∧ o ≤ 4294967295) :
    encode (.sponge c o) = BitVec.ofNat 64 (0x0200000000000000 + c * 2 ^ 32 + o) := by
  simpa [encode] using formatK_eq_ofNat 0x02 (Nat.zero_le _) h.1 h.2

/-- The three commands whose only operand is `outbits` differ in `op` alone. -/
theorem formatK_outbits_eq_ofNat (op : BitVec 8) {o : Nat} (h : o ≤ 4294967295) :
    formatK op 0 0 (o : BitVec 32) = BitVec.ofNat 64 (op.toNat * 2 ^ 56 + o) := by
  simpa using formatK_eq_ofNat op (Nat.zero_le _) (Nat.zero_le _) h

open Machine

/-- A line whose operands are tested first: its word is needed only where they fit. -/
theorem assembled_congr {p : Prop} [Decidable p] {w w' : Word} (h : p → w = w') :
    (if p then some [PortOp.hissue w] else none) = if p then some [.hissue w'] else none :=
  ite_congr rfl (fun hp => by rw [h hp]) fun _ => rfl

/-- Settles O6: the operands that fit are the fields of the word, and the others are refused. -/
theorem assemblerFitsFields : Obligations.AssemblerFitsFields :=
  ⟨fun _ => assembled_congr encode_permute_eq_ofNat, fun _ _ => assembled_congr encode_sponge_eq_ofNat,
    fun _ => assembled_congr (formatK_outbits_eq_ofNat 0x03), fun _ => assembled_congr (formatK_outbits_eq_ofNat 0x04),
    fun _ => assembled_congr (formatK_outbits_eq_ofNat 0x05)⟩

end Sys2Proof
end

section
/-! Everything a step can do, said once: the writes of a completed command, and the effect of each port operation
(R26, R100, R105). What the parameters, the host's lists, the lanes and the input buffers undergo follows from it. -/

namespace Sys2Proof.Machine

/-! ### The writes of a completed command -/

theorem row_ne_permute_iff {i : Instr} : i.row ≠ rowPermute ↔ spongeClass i := by
  cases i <;> simp [Instr.row, rowPermute, rowSponge, rowShake256, rowCshake256, rowKmacxof256, spongeClass, outbitsOf]

/-- A completed command has written the lanes, when it is `PERMUTE`, or `OUT` (R10, R17). -/
theorem commandBody_ok_cases {i : Instr} {s s' : State} (h : commandBody i s = .ok s') :
    (∃ r n, i = .permute r ∧ s' = { s with lanes := keccakP s.lanes n }) ∨
    spongeClass i ∧ ∃ Z : Bytes, Z.length ≤ s.config.outMax.val ∧ s' = s.setBuf .out Z := by
  by_cases hi : spongeClass i
  · exact .inr ⟨hi, spongeClassBody_ok (row_ne_permute_iff.mpr hi) h⟩
  · obtain ⟨r, rfl⟩ := eq_permute_of_row_eq (not_not.mp fun hrow => hi (row_ne_permute_iff.mp hrow))
    obtain ⟨n, -, rfl⟩ := permuteBody_ok h
    exact .inl ⟨r, n, rfl, rfl⟩

/-! ### The effect of a port operation -/

/-- What was wrong with an operation that faults with a cause and records a word (the table of R131): the word is not a
command, or it is a command that fails the test of the cause, or it names a port operation out of range. -/
def FaultReason (s : State) (record : Word) : Cause → Prop
  | .illegalCommand => ∃ e, decode record = .error e
  | .bufferOverflow => ∃ b n, b ≠ .out ∧ withinLimit n s.config.bufMax = false ∧
      record = portFaultWord opHwrbuf (bufNumber (some b)) n
  | .badPortIndex =>
      (∃ i, 24 < i ∧ (record = portFaultWord opHwrlane 0 i ∨ record = portFaultWord opHrdlane 0 i)) ∨
      ∃ b n, (b = none ∨ b = some .out) ∧ record = portFaultWord opHwrbuf (bufNumber b) n
  | c => ∃ i, decode record = .ok i ∧ FailsTest i s c

/-- How a port operation may end, case by case. -/
inductive PortEffect (s : State) : PortOp → State → Prop where
  /-- `HRESET`, in every state (R101). -/
  | reset : PortEffect s .hreset (portHreset s)
  /-- A faulted engine ignores writes and issues (R110). -/
  | ignored (op : PortOp) : s.status.fault = true → PortEffect s op s
  /-- A reading operation hands over a value (R104, R106 to R109). -/
  | read (op : PortOp) (v : PortValue) : PortEffect s op (s.giveHost v)
  /-- `HWRBUF` of an input buffer, of a length that fits (R102). -/
  | writeBuf (b : BufName) (X : Bytes) : s.status.fault = false → b ≠ .out →
      withinLimit X.length s.config.bufMax = true → PortEffect s (.hwrbuf (some b) X) (s.setBuf b X)
  /-- `HWRLANE` in range (R103). -/
  | writeLane (i : Nat) (v : Lane) : s.status.fault = false → PortEffect s (.hwrlane i v) (s.setLane i v)
  /-- `HISSUE` of `PERMUTE` that completes (R61). -/
  | permuted (w : Word) (r : BitVec 8) (n : Fin 25) : s.status.fault = false → decode w = .ok (.permute r) →
      PortEffect s (.hissue w) { s with lanes := keccakP s.lanes n }.setDone
  /-- `HISSUE` of a sponge-class command that completes: `OUT` is replaced (R72, R86, R88, R93). -/
  | sponged (w : Word) (i : Instr) (Z : Bytes) : s.status.fault = false → decode w = .ok i → spongeClass i →
      Z.length ≤ s.config.outMax.val → PortEffect s (.hissue w) (s.setBuf .out Z).setDone
  /-- A fault entry, and the zero that a faulting `HRDLANE` hands over after it (R136, R138). -/
  | faulted (op : PortOp) (c : Cause) (record : Word) (values : List PortValue) : s.status.fault = false →
      FaultReason s record c →
      PortEffect s op { s.faultEntry c record with returned := s.returned ++ values }

theorem PortEffect.fault {s : State} (op : PortOp) {c : Cause} {record : Word} (hf : s.status.fault = false)
    (h : FaultReason s record c) : PortEffect s op (s.faultEntry c record) := by
  have heffect := PortEffect.faulted op c record [] hf h
  rw [List.append_nil] at heffect
  exact heffect

/-- A command that fails its checks has the reason of its cause. -/
theorem faultReason_of_commandBody_error {i : Instr} {s : State} {c : Cause} {w : Word} (hd : decode w = .ok i)
    (h : commandBody i s = .error c) : FaultReason s w c := by
  have hfail := failsTest_of_firstFault (firstFault_of_commandBody_error h)
  cases c with
  | illegalCommand | bufferOverflow | badPortIndex => exact hfail.elim
  | roundsRange | badCapacity | outlenNotByteMultiple | outlenTooLong | encodeDomain | badPadWidth =>
    exact ⟨i, hd, hfail⟩

theorem portEffect_hissue {w : Word} {s t : State} (h : portHissue w s = .next t) : PortEffect s (.hissue w) t := by
  obtain ⟨hf, rfl⟩ | ⟨hf, i, hd, hexec⟩ | ⟨hf, e, hd, rfl⟩ := portHissue_cases h
  · exact .ignored _ hf
  · obtain ⟨hf', -⟩ | ⟨-, s', hbody, rfl⟩ | ⟨-, c, hbody, rfl⟩ := exec_cases hexec
    · cases hf.symm.trans hf'
    · obtain ⟨r, n, rfl, rfl⟩ | ⟨hi, Z, hZ, rfl⟩ := commandBody_ok_cases hbody
      · exact .permuted w r n hf hd
      · exact .sponged w i Z hf hd hi hZ
    · rw [encode_of_decode hd]
      exact .fault _ hf (faultReason_of_commandBody_error (s := s.clearDone) hd hbody)
  · exact .fault _ hf ⟨e, hd⟩

/-- Every port operation that answers a next state has one of the effects. -/
theorem portEffect_of_performPort {op : PortOp} {s t : State} (h : performPort op s = .next t) :
    PortEffect s op t := by
  cases op with
  | hreset =>
    cases h
    exact .reset
  | hwrbuf b X =>
    cases h
    obtain ⟨hf, h⟩ | ⟨hf, hb, h⟩ | ⟨hf, n, rfl, hn, hX, h⟩ | ⟨hf, n, rfl, hn, hX, h⟩ := portHwrbuf_cases b X s <;>
      rw [h]
    · exact .ignored _ hf
    · exact .fault _ hf (.inr ⟨b, X.length, hb, rfl⟩)
    · exact .writeBuf n X hf hn hX
    · exact .fault _ hf ⟨n, X.length, hn, hX, rfl⟩
  | hwrlane i v =>
    cases h
    obtain ⟨hf, h⟩ | ⟨hf, hi, h⟩ | ⟨hf, hi, h⟩ := portHwrlane_cases i v s <;> rw [h]
    · exact .ignored _ hf
    · exact .fault _ hf (.inl ⟨i, hi, .inl rfl⟩)
    · exact .writeLane i v hf
  | hrdlane i =>
    cases h
    obtain ⟨hf, h⟩ | ⟨hf, hi, h⟩ | ⟨hf, hi, h⟩ := portHrdlane_cases i s <;> rw [h]
    · exact .read _ _
    · exact .faulted _ _ _ _ hf (.inl ⟨i, hi, .inr rfl⟩)
    · exact .read _ _
  | hissue w => exact portEffect_hissue h
  | hrdout | hrdstatus | hrdfcmd | hrdlen =>
    cases h
    exact .read _ _

/-- Every step: nothing asked, or the first operation taken off the host's list and performed. -/
theorem step_cases {s t : State} (h : step s = .next t) :
    (s.port = [] ∧ t = s) ∨ ∃ op rest, s.port = op :: rest ∧ PortEffect { s with port := rest } op t := by
  cases hport : s.port with
  | nil =>
    rw [step_idle hport] at h
    cases h
    exact .inl ⟨rfl, rfl⟩
  | cons op rest =>
    rw [step_port hport] at h
    exact .inr ⟨op, rest, rfl, portEffect_of_performPort h⟩

/-! ### No step stops (R41, R159) -/

theorem performPort_total (op : PortOp) (s : State) : ∃ t, performPort op s = .next t := by
  cases op with
  | hissue w =>
    cases hf : s.status.fault with
    | true => exact ⟨s, portHissue_faulted hf w⟩
    | false =>
      obtain ⟨t, ht, -⟩ := exists_portHissue_completedOrFaulted hf w
      exact ⟨t, ht⟩
  | hreset | hwrbuf | hwrlane | hrdlane | hrdout | hrdstatus | hrdfcmd | hrdlen => exact ⟨_, rfl⟩

theorem PortEffect.config_eq {op : PortOp} {s t : State} (h : PortEffect s op t) : t.config = s.config := by
  cases h <;> rfl

theorem PortEffect.port_eq {op : PortOp} {s t : State} (h : PortEffect s op t) : t.port = s.port := by
  cases h <;> rfl

/-- What the host has received stays, and at most something is added (R100). -/
theorem PortEffect.returned_prefix {op : PortOp} {s t : State} (h : PortEffect s op t) : s.returned <+: t.returned := by
  cases h with
  | read _ v => exact List.prefix_append s.returned [v]
  | faulted _ _ _ values => exact List.prefix_append s.returned values
  | reset | ignored | writeBuf | writeLane | permuted | sponged => exact List.prefix_rfl

/-- Settles O49: every operation has an effect, and no effect writes the parameters or the host's own lists. -/
theorem everyStepHasNextState : Obligations.EveryStepHasNextState := by
  refine fun s => ⟨?next, step_idle⟩
  case next =>
    cases hport : s.port with
    | nil => exact ⟨s, step_idle hport, rfl, by simp [hport], List.prefix_rfl⟩
    | cons op rest =>
      obtain ⟨t, ht⟩ := performPort_total op { s with port := rest }
      have heffect := portEffect_of_performPort ht
      exact ⟨t, (step_port hport).trans ht, heffect.config_eq, heffect.port_eq, heffect.returned_prefix⟩

/-! ### Who writes the lanes and the input buffers (R10, R153, R154) -/

/-- Settles O54: of the effects only these four write a lane. -/
theorem laneFileHasFewWriters : Obligations.LaneFileHasFewWriters := by
  intro s t h hne
  obtain ⟨-, rfl⟩ | ⟨op, rest, hport, heffect⟩ := step_cases h
  · exact absurd rfl hne
  · cases heffect with
    | writeLane i v => exact .inl ⟨i, v, rest, hport⟩
    | permuted w r n _ hd => exact .inr (.inl ⟨w, r, rest, hport, hd⟩)
    | faulted _ _ _ _ hf => exact .inr (.inr (.inl ⟨hf, rfl⟩))
    | reset => exact .inr (.inr (.inr ⟨rest, hport⟩))
    | ignored | read | writeBuf | sponged => exact absurd rfl hne

/-- Settles O55: commands and fault entries write no buffer but `OUT`, and the host writes the one it names. -/
theorem inputBuffersChangedByHostOnly : Obligations.InputBuffersChangedByHostOnly := by
  intro s t b hb h hne
  obtain ⟨-, rfl⟩ | ⟨op, rest, hport, heffect⟩ := step_cases h
  · exact absurd rfl hne
  · cases heffect with
    | writeBuf b' X =>
      by_cases hbb' : b = b'
      · subst hbb'
        exact .inl ⟨X, rest, hport, memory_get_set_same s.mem b X⟩
      · exact absurd (memory_get_set_ne s.mem X hbb') hne
    | reset => exact .inr ⟨rest, hport⟩
    | sponged _ _ Z => exact absurd (memory_get_set_ne s.mem Z hb) hne
    | faulted => exact absurd (memory_get_set_ne s.mem [] hb) hne
    | ignored | read | writeLane | permuted => exact absurd rfl hne

end Sys2Proof.Machine
end

section
/-! The invariant of a reachable state, and the record of a faulted engine: both hold on, effect by effect. -/

namespace Sys2Proof.Machine

/-! ### The invariant (R13, R14, R16, R110, R131, R136) -/

/-- The invariant of a live engine: `CAUSE` and `FCMD` are zero and the buffers fit; the other clauses are of faulted
engines. -/
theorem inv_of_live {s : State} (hf : s.status.fault = false) (hcause : s.status.cause = 0) (hfcmd : s.fcmd = 0)
    (hwf : s.mem.wf s.config = true) : s.Inv where
  flagsExclusive := by simp [hf]
  noFaultNoRecord _ := ⟨hcause, hfcmd⟩
  causeNamed := by simp [hf]
  faultErases := by simp [hf]
  buffersFit := hwf

theorem inv_faultEntry {s : State} {c : Cause} (hc : c ≠ .badPadWidth) (record : Word)
    (hwf : s.mem.wf s.config = true) : (s.faultEntry c record).Inv where
  flagsExclusive := by simp
  noFaultNoRecord := by simp
  causeNamed _ := ⟨c, hc, rfl⟩
  faultErases _ := ⟨lane_faultEntry s c record, rfl⟩
  buffersFit := memory_wf_clear_out s.config hwf

/-- The invariant speaks of the engine alone, not of the host's two lists (R159). -/
theorem State.Inv.with_host {s : State} (h : s.Inv) (port : List PortOp) (returned : List PortValue) :
    State.Inv { s with port := port, returned := returned } := ⟨h.1, h.2, h.3, h.4, h.5⟩

theorem inv_resetWith (c : Config) : (State.resetWith c).Inv := inv_of_live rfl rfl rfl (memory_wf_empty c)

/-- Settles O51: right after reset the engine is live, with no record and with empty buffers. -/
theorem invariantHoldsAtReset : Obligations.InvariantHoldsAtReset := inv_resetWith

/-- No operation faults for a bad pad width (R137). -/
theorem FaultReason.ne_badPadWidth {s : State} {record : Word} {c : Cause} (h : FaultReason s record c) :
    c ≠ .badPadWidth := by
  rintro rfl
  obtain ⟨_, -, hfail⟩ := h
  exact hfail

theorem State.Inv.portEffect {op : PortOp} {s t : State} (hinv : s.Inv) (h : PortEffect s op t) : t.Inv := by
  have hwf := hinv.buffersFit
  cases h with
  | reset => exact (inv_resetWith s.config).with_host s.port s.returned
  | ignored => exact hinv
  | read _ v => exact hinv.with_host s.port _
  | faulted _ c record values hf hreason =>
    exact (inv_faultEntry hreason.ne_badPadWidth record hwf).with_host s.port _
  | writeBuf b X hf hb hX =>
    obtain ⟨hcause, hfcmd⟩ := hinv.noFaultNoRecord hf
    exact inv_of_live hf hcause hfcmd (memory_wf_set s.config b hwf (by rwa [bufLimit_of_ne_out hb]))
  | writeLane i v hf | permuted w r n hf =>
    obtain ⟨hcause, hfcmd⟩ := hinv.noFaultNoRecord hf
    exact inv_of_live hf hcause hfcmd hwf
  | sponged w i Z hf _ _ hZ =>
    obtain ⟨hcause, hfcmd⟩ := hinv.noFaultNoRecord hf
    exact inv_of_live hf hcause hfcmd (memory_wf_set s.config .out hwf (decide_eq_true hZ))

/-- Settles O50: each effect keeps the invariant, and taking the operation off the host's list does not touch it. -/
theorem invariantKeptByEveryStep : Obligations.InvariantKeptByEveryStep := by
  intro s t hinv h
  obtain ⟨-, rfl⟩ | ⟨op, rest, -, heffect⟩ := step_cases h
  · exact hinv
  · exact (hinv.with_host rest s.returned).portEffect heffect

/-! ### The record of a faulted engine (R132 to R138) -/

/-- The fault entry empties `OUT`, whose length no command encodes. -/
theorem lengthsEncodable_clear_out {i : Instr} {m : Memory} :
    lengthsEncodable i (m.set .out []) ↔ lengthsEncodable i m := by
  refine forall₂_congr fun b hb => ?_
  rw [Memory.len, memory_get_set_ne m [] (ne_out_of_mem_buffersEncoded hb), Memory.len]

theorem withinLimit_eq_true_iff {n : Nat} {limit : Option Nat} :
    withinLimit n limit = true ↔ ∀ m, limit = some m → n ≤ m := by
  cases limit <;> simp [withinLimit]

theorem withinLimit_eq_false_iff {n : Nat} {limit : Option Nat} :
    withinLimit n limit = false ↔ ∃ m, limit = some m ∧ m < n := by
  cases limit <;> simp [withinLimit]

/-- A fault entry for a reason leaves a record that tells the reason. -/
theorem faultExplained_faultEntry {s : State} {record : Word} {c : Cause} (h : FaultReason s record c) :
    (s.faultEntry c record).faultExplained := by
  intro _
  cases c with
  | illegalCommand => exact .inl ⟨rfl, h⟩
  | roundsRange =>
    obtain ⟨_, hd, r, rfl, hr⟩ := h
    exact .inr (.inl ⟨rfl, r, hd, hr⟩)
  | badCapacity =>
    obtain ⟨_, hd, cap, o, rfl, hcap⟩ := h
    exact .inr (.inr (.inl ⟨rfl, cap, o, hd, hcap⟩))
  | outlenNotByteMultiple =>
    obtain ⟨i, hd, o, ho, h8⟩ := h
    exact .inr (.inr (.inr (.inl ⟨rfl, i, o, hd, ho, h8⟩)))
  | outlenTooLong =>
    obtain ⟨i, hd, o, ho, hlong⟩ := h
    exact .inr (.inr (.inr (.inr (.inl ⟨rfl, i, o, hd, ho, hlong⟩))))
  | encodeDomain =>
    obtain ⟨i, hd, hlong⟩ := h
    exact .inr (.inr (.inr (.inr (.inr (.inl ⟨rfl, i, hd, mt lengthsEncodable_clear_out.mp hlong⟩)))))
  | badPadWidth => exact absurd rfl h.ne_badPadWidth
  | bufferOverflow =>
    obtain ⟨b, n, hb, hlimit, hrecord⟩ := h
    obtain ⟨m, hmax, hlong⟩ := withinLimit_eq_false_iff.mp hlimit
    exact .inr (.inr (.inr (.inr (.inr (.inr (.inl ⟨rfl, b, m, n, hmax, hlong, hb, hrecord⟩))))))
  | badPortIndex => exact .inr (.inr (.inr (.inr (.inr (.inr (.inr ⟨rfl, h⟩))))))

theorem faultExplained_of_live {s : State} (hf : s.status.fault = false) : s.faultExplained := by
  intro hf'
  cases hf.symm.trans hf'

theorem State.faultExplained.portEffect {op : PortOp} {s t : State} (hs : s.faultExplained)
    (h : PortEffect s op t) : t.faultExplained := by
  cases h with
  | ignored => exact hs
  | read => exact hs
  | faulted _ c record _ _ hreason => exact faultExplained_faultEntry (s := s) (record := record) hreason
  | reset => exact faultExplained_of_live rfl
  | writeBuf _ _ hf | writeLane _ _ hf | permuted _ _ _ hf | sponged _ _ _ hf => exact faultExplained_of_live hf

/-- Settles O52: a fault entry records its reason, and a faulted engine keeps its record until it is reset. -/
theorem faultRecordStaysTrue : Obligations.FaultRecordStaysTrue := by
  intro s t hs h
  obtain ⟨-, rfl⟩ | ⟨op, rest, -, heffect⟩ := step_cases h
  · exact hs
  · exact State.faultExplained.portEffect (s := { s with port := rest }) hs heffect

end Sys2Proof.Machine
end

section
/-! What the commands complete with (R72, R86, R88, R93), their frames (R10, R17, R136), and what they do not read
(R153). -/

namespace Sys2Proof.Machine

/-! ### The sponge-class commands complete -/

/-- A sponge-class command whose checks pass replaces `OUT`, sets `DONE`, and changes nothing else. -/
theorem exec_of_commandBody_setBuf {i : Instr} {s : State} {Z : Bytes} (hf : s.status.fault = false)
    (h : commandBody i s = .ok (s.setBuf .out Z)) :
    exec i s = .next { s with
      mem := { s.mem with out := Z }
      status := { done := true, fault := false, cause := s.status.cause } } := by
  rw [exec_eq_runCommand, runCommand_ok hf h, ← hf]
  rfl

section
variable {o : BitVec 32} {s : State} (h8 : o.toNat % 8 = 0) (hfits : o.toNat / 8 ≤ s.config.outMax.val)
include h8 hfits

theorem commandBody_sponge_legal {cap : BitVec 16} (hc : cap.toNat % 8 = 0 ∧ cap.toNat ≤ 1592) :
    commandBody (.sponge cap o) s = .ok (s.setBuf .out (sponge s.mem.inp o.toNat ⟨cap.toNat, hc⟩)) :=
  bind_ok.mpr ⟨_, capOperand_legal hc, bind_ok.mpr ⟨_, outbitsOperand_legal h8 hfits, rfl⟩⟩

theorem commandBody_shake256_legal :
    commandBody (.shake256 o) s = .ok (s.setBuf .out (shake256 s.mem.inp o.toNat)) :=
  bind_ok.mpr ⟨_, outbitsOperand_legal h8 hfits, rfl⟩

theorem commandBody_cshake256_legal (hN : 8 * s.mem.name.length < encLimit) (hC : 8 * s.mem.cust.length < encLimit)
    {Z : Bytes} (hZ : cshake256 s.mem.inp o.toNat s.mem.name s.mem.cust = .ok Z) :
    commandBody (.cshake256 o) s = .ok (s.setBuf .out Z) :=
  bind_ok.mpr ⟨_, outbitsOperand_legal h8 hfits, bind_ok.mpr ⟨_, encodable_short hN,
    bind_ok.mpr ⟨_, encodable_short hC, bind_ok.mpr ⟨Z, hZ, rfl⟩⟩⟩⟩

theorem commandBody_kmacxof256_legal (hK : 8 * s.mem.key.length < encLimit) (hC : 8 * s.mem.cust.length < encLimit)
    {Z : Bytes} (hZ : kmacxof256 s.mem.key s.mem.inp o.toNat s.mem.cust = .ok Z) :
    commandBody (.kmacxof256 o) s = .ok (s.setBuf .out Z) :=
  bind_ok.mpr ⟨_, outbitsOperand_legal h8 hfits, bind_ok.mpr ⟨_, encodable_short hK,
    bind_ok.mpr ⟨_, encodable_short hC, bind_ok.mpr ⟨Z, hZ, rfl⟩⟩⟩⟩

end

/-- Settles O29: with both operands legal the checks pass, and the sponge has the length asked for. -/
theorem spongeCompletes : Obligations.SpongeCompletes := fun _ _ _ hc hf h8 hfits =>
  ⟨exec_of_commandBody_setBuf hf (commandBody_sponge_legal h8 hfits hc), length_sponge _ _ _⟩

/-- Settles O30: with a legal output length the checks pass. -/
theorem shake256Completes : Obligations.Shake256Completes := fun _ _ hf h8 hfits =>
  ⟨exec_of_commandBody_setBuf hf (commandBody_shake256_legal h8 hfits), length_shake256 _ _⟩

/-- Settles O31: the function completes on strings whose lengths are in the domain, and so do the command's checks. -/
theorem cshake256Completes : Obligations.Cshake256Completes := by
  intro o s hf h8 hfits hN hC
  rw [two_pow_2040] at hN hC
  obtain ⟨Z, hZ⟩ := cshake256_ok s.mem.inp o.toNat hN hC
  exact ⟨Z, hZ, length_cshake256 hZ, exec_of_commandBody_setBuf hf (commandBody_cshake256_legal h8 hfits hN hC hZ)⟩

/-- Settles O32: the function completes on a key and a string whose lengths are in the domain, and so do the command's
checks. -/
theorem kmacxof256Completes : Obligations.Kmacxof256Completes := by
  intro o s hf h8 hfits hK hC
  rw [two_pow_2040] at hK hC
  obtain ⟨Z, hZ⟩ := kmacxof256_ok s.mem.inp o.toNat hK hC
  exact ⟨Z, hZ, length_kmacxof256 hZ, exec_of_commandBody_setBuf hf (commandBody_kmacxof256_legal h8 hfits hK hC hZ)⟩

/-! ### The frames (R10, R17, R136) -/

section
variable {i : Instr} {s t : State} (h : exec i s = .next t)
include h

/-- No command stores to a buffer but `OUT`, or touches the parameters or the host's lists. -/
theorem exec_frame :
    (∀ b j, b ≠ BufName.out → t.mem.byte b j = s.mem.byte b j) ∧ t.config = s.config ∧ t.port = s.port ∧
      t.returned = s.returned := by
  obtain ⟨-, rfl⟩ | ⟨-, s', hbody, rfl⟩ | ⟨-, c, -, rfl⟩ := exec_cases h
  · exact ⟨fun _ _ _ => rfl, rfl, rfl, rfl⟩
  · obtain ⟨r, n, -, rfl⟩ | ⟨-, Z, -, rfl⟩ := commandBody_ok_cases hbody
    · exact ⟨fun _ _ _ => rfl, rfl, rfl, rfl⟩
    · exact ⟨fun _ j hb => memory_byte_set_ne s.mem Z j hb, rfl, rfl, rfl⟩
  · exact ⟨fun _ j hb => memory_byte_set_ne s.mem [] j hb, rfl, rfl, rfl⟩

/-- A command that leaves `FAULT` as it is was ignored or completed. -/
theorem exec_fault_eq_cases (hft : t.status.fault = s.status.fault) :
    t = s ∨ ∃ s', commandBody i s = .ok s' ∧ t = s'.setDone := by
  obtain ⟨-, rfl⟩ | ⟨-, s', hbody, rfl⟩ | ⟨hf, c, -, rfl⟩ := exec_cases h
  · exact .inl rfl
  · exact .inr ⟨s', hbody, rfl⟩
  · cases hf.symm.trans hft.symm

/-- A command that changes `FAULT` sets it, and leaves no byte in `OUT`. -/
theorem exec_fault_ne (hft : t.status.fault ≠ s.status.fault) :
    t.status.fault = true ∧ ∀ j, t.mem.byte .out j = none := by
  obtain ⟨-, rfl⟩ | ⟨-, s', hbody, rfl⟩ | ⟨-, c, -, rfl⟩ := exec_cases h
  · exact absurd rfl hft
  · exact absurd (congrArg Status.fault (commandBody_ok_status hbody)) hft
  · exact ⟨rfl, fun _ => rfl⟩

end

/-- Settles O33: a completed `PERMUTE` writes lanes and `DONE` alone. -/
theorem permuteFrame : Obligations.PermuteFrame := by
  intro r s t h
  obtain ⟨hbytes, hconfig, hport, hreturned⟩ := exec_frame h
  refine ⟨hbytes, hconfig, hport, hreturned, fun hft => ?kept, exec_fault_ne h⟩
  case kept =>
    obtain rfl | ⟨s', hbody, rfl⟩ := exec_fault_eq_cases h hft
    · exact ⟨fun _ => rfl, rfl, rfl⟩
    · obtain ⟨n, -, rfl⟩ := permuteBody_ok hbody
      exact ⟨fun _ => rfl, rfl, rfl⟩

/-- Settles O34: a completed sponge-class command writes `OUT` and `DONE` alone. -/
theorem spongeClassFrame : Obligations.SpongeClassFrame := by
  intro i s t hi h
  obtain ⟨hbytes, hconfig, hport, hreturned⟩ := exec_frame h
  refine ⟨hbytes, hconfig, hport, hreturned, fun hft => ?kept, exec_fault_ne h⟩
  case kept =>
    obtain rfl | ⟨s', hbody, rfl⟩ := exec_fault_eq_cases h hft
    · exact ⟨rfl, rfl, rfl⟩
    · obtain ⟨Z, -, rfl⟩ := spongeClassBody_ok (row_ne_permute_iff.mpr hi) hbody
      exact ⟨rfl, rfl, rfl⟩

/-! ### What a sponge-class command does not read (R153) -/

/-- What a command's checks and writes leave in `OUT`, or the fault they raise. -/
def bodyOutput (x : Except Cause State) : Except Cause Bytes := x.map (·.mem.out)

/-- One check or value of a command, the same on two engines, before the rest of it. -/
theorem bodyOutput_bind_congr {α : Type} {x : Except Cause α} {f g : α → Except Cause State}
    (h : ∀ a, bodyOutput (f a) = bodyOutput (g a)) : bodyOutput (x >>= f) = bodyOutput (x >>= g) := by
  cases x with
  | error c => rfl
  | ok a => exact h a

theorem bodyOutput_setBuf_out (s t : State) (Z : Bytes) :
    bodyOutput (pure (s.setBuf .out Z)) = bodyOutput (pure (t.setBuf .out Z)) := rfl

/-- The output of a sponge-class command is a function of the parameters and of the buffers it reads. -/
theorem bodyOutput_congr {i : Instr} {s t : State} (hi : spongeClass i) (hconfig : s.config = t.config)
    (hread : ∀ b ∈ buffersRead i, s.mem.get b = t.mem.get b) :
    bodyOutput (commandBody i s) = bodyOutput (commandBody i t) := by
  cases i with
  | permute r => cases hi
  | sponge cap o =>
    have hinp : s.mem.inp = t.mem.inp := hread .inp (by simp [buffersRead])
    rw [commandBody, spongeBody, spongeBody, hconfig, hinp]
    exact bodyOutput_bind_congr fun _ => bodyOutput_bind_congr fun _ => bodyOutput_setBuf_out s t _
  | shake256 o =>
    have hinp : s.mem.inp = t.mem.inp := hread .inp (by simp [buffersRead])
    rw [commandBody, shake256Body, shake256Body, hconfig, hinp]
    exact bodyOutput_bind_congr fun _ => bodyOutput_setBuf_out s t _
  | cshake256 o =>
    have hinp : s.mem.inp = t.mem.inp := hread .inp (by simp [buffersRead])
    have hname : s.mem.name = t.mem.name := hread .name (by simp [buffersRead])
    have hcust : s.mem.cust = t.mem.cust := hread .cust (by simp [buffersRead])
    rw [commandBody, cshake256Body, cshake256Body, hconfig, hinp, hname, hcust]
    exact bodyOutput_bind_congr fun _ => bodyOutput_bind_congr fun _ => bodyOutput_bind_congr fun _ =>
      bodyOutput_bind_congr fun _ => bodyOutput_setBuf_out s t _
  | kmacxof256 o =>
    have hkey : s.mem.key = t.mem.key := hread .key (by simp [buffersRead])
    have hinp : s.mem.inp = t.mem.inp := hread .inp (by simp [buffersRead])
    have hcust : s.mem.cust = t.mem.cust := hread .cust (by simp [buffersRead])
    rw [commandBody, kmacxof256Body, kmacxof256Body, hconfig, hkey, hinp, hcust]
    exact bodyOutput_bind_congr fun _ => bodyOutput_bind_congr fun _ => bodyOutput_bind_congr fun _ =>
      bodyOutput_bind_congr fun _ => bodyOutput_setBuf_out s t _

/-- `OUT`, `DONE` and `FAULT` after a command on a live engine: what the command leaves in `OUT`, or the fault entry. -/
def resultOf : Except Cause Bytes → Bytes × Bool × Bool
  | .ok Z => (Z, true, false)
  | .error _ => ([], false, true)

theorem exec_result {i : Instr} {s t : State} (hf : s.status.fault = false) (h : exec i s = .next t) :
    (t.mem.out, t.status.done, t.status.fault) = resultOf (bodyOutput (commandBody i s)) := by
  obtain ⟨hf', -⟩ | ⟨-, s', hbody, rfl⟩ | ⟨-, c, hbody, rfl⟩ := exec_cases h
  · cases hf.symm.trans hf'
  · rw [hbody, setDone_status, commandBody_ok_status hbody, status_setDone_fault, hf]
    rfl
  · rw [hbody]
    rfl

/-- Settles O35: what the host sees of the two results is one function of what the command reads. -/
theorem unreadStateHasNoInfluence : Obligations.UnreadStateHasNoInfluence := by
  intro i s t s' t' hi hs ht hconfig hread hs' ht'
  have hsame : (s'.mem.out, s'.status.done, s'.status.fault) = (t'.mem.out, t'.status.done, t'.status.fault) := by
    rw [exec_result hs hs', exec_result ht ht', bodyOutput_congr hi hconfig hread]
  simpa only [Prod.mk.injEq] using hsame

end Sys2Proof.Machine
end

section
/-! The bits of `STATUS` and the numbers of the causes (R13, R131). -/

namespace Sys2Proof.Machine

theorem getLsbD_status_word (st : Status) (z : Nat) :
    st.word.getLsbD z =
      if z = 0 then st.done else if z = 1 then st.fault
      else if 8 ≤ z ∧ z ≤ 15 then st.cause.getLsbD (z - 8) else false := by
  have hrange : z = 0 ∨ z = 1 ∨ (2 ≤ z ∧ z ≤ 7) ∨ (8 ≤ z ∧ z ≤ 15) ∨ 16 ≤ z := by omega
  simp only [Status.word, BitVec.getLsbD_append]
  obtain rfl | rfl | h | h | h := hrange
  case inl => simp
  case inr.inl => simp
  case inr.inr.inl =>
    simp [show z - 1 - 1 < 6 by omega, show ¬z < 1 by omega, show ¬z - 1 < 1 by omega, show ¬8 ≤ z by omega,
      show z ≠ 0 by omega, show z ≠ 1 by omega]
  case inr.inr.inr.inl =>
    simp [h, show z - 1 - 1 - 6 = z - 8 by omega, show z - 8 < 8 by omega, show ¬z - 1 - 1 < 6 by omega,
      show ¬z < 1 by omega, show ¬z - 1 < 1 by omega, show z ≠ 0 by omega, show z ≠ 1 by omega]
  case inr.inr.inr.inr =>
    simp [show ¬z - 1 - 1 - 6 < 8 by omega, show ¬z - 1 - 1 < 6 by omega, show ¬z < 1 by omega,
      show ¬z - 1 < 1 by omega, show z ≠ 0 by omega, show z ≠ 1 by omega, show ¬z ≤ 15 by omega]

/-- The codes are numbered from 1 (R131). -/
theorem cause_code_bounds (c : Cause) : 0x01 ≤ c.code.toNat ∧ c.code.toNat ≤ 0x09 := by
  cases c <;> decide

/-- Settles O42: the word is its fields one above the other, and the codes are 1 to 9. -/
theorem statusBitsAndCauseCodes : Obligations.StatusBitsAndCauseCodes :=
  ⟨getLsbD_status_word, fun _ _ => cause_code_injective, cause_code_bounds, rfl, rfl, rfl, rfl, rfl, rfl, rfl, rfl,
    rfl⟩

end Sys2Proof.Machine
end

section
/-! The padding of the last block (R66), and the corner of cSHAKE256 where it adds nothing (R89). -/

namespace Sys2Proof.Machine

theorem length_pad {P : Bytes} {r : Nat} (hr : 1 ≤ r) : (pad P r).length = P.length + (r - P.length % r) % r := by
  have hlt : P.length % r < r := Nat.mod_lt _ hr
  by_cases h : P.length % r = 0
  · rw [pad_of_whole_blocks h, h, Nat.sub_zero, Nat.mod_self, Nat.add_zero]
  · rw [pad_of_partial_block h, Nat.mod_eq_of_lt (show r - P.length % r < r by omega), List.length_append,
      List.length_append, length_zeros, List.length_singleton]
    omega

/-- Settles O16: the bytes appended are fewer than a block, and fill it. -/
theorem padFillsLastBlock : Obligations.PadFillsLastBlock := by
  intro P r hr
  refine ⟨pad_of_whole_blocks, pad_of_partial_block, ?_⟩
  rw [length_pad hr]
  exact ⟨add_padding_mod hr _, Nat.le_add_right _ _, Nat.add_lt_add_left (Nat.mod_lt _ hr) _⟩

theorem getLast?_pad {P : Bytes} {r : Nat} (h : P.length % r ≠ 0) : (pad P r).getLast? = some 0x80 := by
  rw [pad_of_partial_block h, List.getLast?_concat]

/-- The strings come before the input in whole blocks, and the suffix byte after it (R87). -/
theorem eq_of_cshakeInput_ok {X N C T : Bytes} (h : cshakeInput X N C = .ok T) :
    ∃ p, p.length % 136 = 0 ∧ T = p ++ X ++ [0x04] := by
  obtain ⟨n, -, h⟩ := bind_ok.mp h
  obtain ⟨c, -, h⟩ := bind_ok.mp h
  obtain ⟨p, hp, h⟩ := bind_ok.mp h
  exact ⟨p, length_bytepad_136_mod hp, (Except.ok.inj h).symm⟩

/-- Settles O26: `pad` adds nothing exactly when the suffix byte completes a block. -/
theorem cshakeWholeBlockHasNoFinalBit : Obligations.CshakeWholeBlockHasNoFinalBit := by
  intro X N C T h
  obtain ⟨p, hp, rfl⟩ := eq_of_cshakeInput_ok h
  have hlen : (p ++ X ++ [0x04]).length = p.length + X.length + 1 := by
    rw [List.length_append, List.length_append, List.length_singleton]
  refine ⟨fun hX => ?noRoom, fun hX => getLast?_pad ?room⟩
  case noRoom =>
    have hpad : pad (p ++ X ++ [0x04]) 136 = p ++ X ++ [0x04] := pad_of_whole_blocks (by omega)
    rw [hpad]
    exact ⟨rfl, List.getLast?_concat⟩
  case room => omega

end Sys2Proof.Machine
end

section
/-! The buffer write of the port (R102), and what the port does not tell about the input buffers (R155). -/

namespace Sys2Proof.Machine

open Sys2Proof.Claims

/-! ### `HWRBUF` (R102) -/

/-- Settles O44: a write that is refused is the fault entry, and one that is not is `BufSet`. -/
theorem hwrbufReplacesWholeBuffer : Obligations.HwrbufReplacesWholeBuffer := by
  refine ⟨fun s b X hf hb => ?notWritable, fun s b X hf hb => ⟨fun hX => ?fits, fun m hmax hlong => ?overflow⟩⟩
  case notWritable =>
    exact ⟨_, congrArg Host.Outcome.next (portHwrbuf_not_writable hf hb X), rfl,
      fun _ hb' => memory_get_set_ne s.mem [] hb'⟩
  case fits =>
    exact ⟨_, congrArg Host.Outcome.next (portHwrbuf_fits hf hb (withinLimit_eq_true_iff.mpr hX)),
      memory_get_set_same s.mem b X, fun _ hb' => memory_get_set_ne s.mem X hb', rfl, rfl, rfl, rfl, rfl, rfl⟩
  case overflow =>
    have hX : withinLimit X.length s.config.bufMax = false := withinLimit_eq_false_iff.mpr ⟨m, hmax, hlong⟩
    exact ⟨_, congrArg Host.Outcome.next (portHwrbuf_overflow hf hb hX), rfl, memory_get_set_ne s.mem [] hb⟩

/-! ### The input buffers do not show through the port (R155) -/

section
variable {s t : State} (h : SameButInputContents s t)
include h

theorem sameButInputContents_giveHost (v : PortValue) : SameButInputContents (s.giveHost v) (t.giveHost v) := by
  obtain ⟨hlanes, hstatus, hfcmd, hconfig, hport, hreturned, hmem⟩ := h
  exact ⟨hlanes, hstatus, hfcmd, hconfig, hport, congrArg (· ++ [v]) hreturned, hmem⟩

theorem sameButInputContents_setLane (i : Nat) (v : Lane) : SameButInputContents (s.setLane i v) (t.setLane i v) := by
  obtain ⟨hlanes, hrest⟩ := h
  exact ⟨congrArg (·.setIfInBounds i v) hlanes, hrest⟩

/-- The two engines hold the same where a buffer is replaced, and lengths as before elsewhere. -/
theorem len_set_eq (b : BufName) (X : Bytes) (b' : BufName) : (s.mem.set b X).len b' = (t.mem.set b X).len b' := by
  obtain ⟨-, -, -, -, -, -, -, hlen⟩ := h
  by_cases hb : b' = b
  · rw [hb, Memory.len, Memory.len, memory_get_set_same, memory_get_set_same]
  · rw [Memory.len, Memory.len, memory_get_set_ne _ _ hb, memory_get_set_ne _ _ hb]
    exact hlen b'

theorem sameButInputContents_setBuf {b : BufName} (hb : b ≠ .out) (X : Bytes) :
    SameButInputContents (s.setBuf b X) (t.setBuf b X) := by
  have hlen := len_set_eq h b X
  obtain ⟨hlanes, hstatus, hfcmd, hconfig, hport, hreturned, hout, -⟩ := h
  refine ⟨hlanes, hstatus, hfcmd, hconfig, hport, hreturned, ?_, hlen⟩
  have hkept (m : Memory) : (m.set b X).get .out = m.get .out := memory_get_set_ne m X hb.symm
  exact (hkept s.mem).trans (hout.trans (hkept t.mem).symm)

theorem sameButInputContents_faultEntry (c : Cause) (w : Word) :
    SameButInputContents (s.faultEntry c w) (t.faultEntry c w) := by
  have hlen := len_set_eq h .out []
  obtain ⟨-, -, -, hconfig, hport, hreturned, -, -⟩ := h
  exact ⟨rfl, rfl, rfl, hconfig, hport, hreturned, rfl, hlen⟩

theorem sameButInputContents_permuted (n : Fin 25) :
    SameButInputContents { s with lanes := keccakP s.lanes n }.setDone
      { t with lanes := keccakP t.lanes n }.setDone := by
  obtain ⟨hlanes, hstatus, hrest⟩ := h
  exact ⟨congrArg (keccakP · n) hlanes, congrArg Status.setDone hstatus, hrest⟩

theorem sameButInputContents_hreset : SameButInputContents (portHreset s) (portHreset t) := by
  obtain ⟨-, -, -, hconfig, hport, hreturned, -, -⟩ := h
  exact ⟨rfl, rfl, rfl, hconfig, hport, hreturned, rfl, fun _ => rfl⟩

theorem sameButInputContents_hwrbuf (b : Option BufName) (X : Bytes) :
    SameButInputContents (portHwrbuf b X s) (portHwrbuf b X t) := by
  have ⟨_, hstatus, _, hconfig, _⟩ := h
  obtain ⟨hf, hs⟩ | ⟨hf, hb, hs⟩ | ⟨hf, n, rfl, hn, hX, hs⟩ | ⟨hf, n, rfl, hn, hX, hs⟩ := portHwrbuf_cases b X s <;>
    rw [hs] <;> rw [hstatus] at hf
  case inl => rwa [portHwrbuf_faulted hf]
  case inr.inl =>
    rw [portHwrbuf_not_writable hf hb]
    exact sameButInputContents_faultEntry h _ _
  all_goals rw [hconfig] at hX
  case inr.inr.inl =>
    rw [portHwrbuf_fits hf hn hX]
    exact sameButInputContents_setBuf h hn X
  case inr.inr.inr =>
    rw [portHwrbuf_overflow hf hn hX]
    exact sameButInputContents_faultEntry h _ _

theorem sameButInputContents_hwrlane (i : Nat) (v : Lane) :
    SameButInputContents (portHwrlane i v s) (portHwrlane i v t) := by
  have ⟨_, hstatus, _⟩ := h
  obtain ⟨hf, hs⟩ | ⟨hf, hi, hs⟩ | ⟨hf, hi, hs⟩ := portHwrlane_cases i v s <;> rw [hs] <;> rw [hstatus] at hf
  case inl => rwa [portHwrlane_faulted hf]
  case inr.inl =>
    rw [portHwrlane_out_of_range hf hi]
    exact sameButInputContents_faultEntry h _ _
  case inr.inr =>
    rw [portHwrlane_in_range hf hi]
    exact sameButInputContents_setLane h i v

theorem sameButInputContents_hrdlane (i : Nat) : SameButInputContents (portHrdlane i s) (portHrdlane i t) := by
  have ⟨hlanes, hstatus, _⟩ := h
  have hlane : s.lane i = t.lane i := congrArg (·.toArray.getD i 0) hlanes
  obtain ⟨hf, hs⟩ | ⟨hf, hi, hs⟩ | ⟨hf, hi, hs⟩ := portHrdlane_cases i s <;> rw [hs] <;> rw [hstatus] at hf
  case inl =>
    rw [portHrdlane_faulted hf]
    exact sameButInputContents_giveHost h _
  case inr.inl =>
    rw [portHrdlane_out_of_range hf hi]
    exact sameButInputContents_giveHost (sameButInputContents_faultEntry h _ _) _
  case inr.inr =>
    rw [portHrdlane_in_range hf hi, hlane]
    exact sameButInputContents_giveHost h _

/-- `OUT` is the one buffer whose content the port reads. -/
theorem sameButInputContents_hrdout : SameButInputContents (portHrdout s) (portHrdout t) := by
  have ⟨_, hstatus, _, _, _, _, hout, _⟩ := h
  rw [portHrdout, portHrdout, hstatus, hout]
  exact sameButInputContents_giveHost h _

theorem sameButInputContents_hrdstatus : SameButInputContents (portHrdstatus s) (portHrdstatus t) := by
  have ⟨_, hstatus, _⟩ := h
  rw [portHrdstatus, portHrdstatus, hstatus]
  exact sameButInputContents_giveHost h _

theorem sameButInputContents_hrdfcmd : SameButInputContents (portHrdfcmd s) (portHrdfcmd t) := by
  have ⟨_, _, hfcmd, _⟩ := h
  rw [portHrdfcmd, portHrdfcmd, hfcmd]
  exact sameButInputContents_giveHost h _

theorem sameButInputContents_hrdlen (b : BufName) : SameButInputContents (portHrdlen b s) (portHrdlen b t) := by
  have ⟨_, _, _, _, _, _, _, hlen⟩ := h
  rw [portHrdlen, portHrdlen, hlen b]
  exact sameButInputContents_giveHost h _

end

/-- Two outcomes are next states that differ at most in the contents of the input buffers. -/
def SameNext (x y : Host.Outcome State Fault Refusal) : Prop :=
  ∃ s t, x = .next s ∧ y = .next t ∧ SameButInputContents s t

theorem portHissue_permute_legal {w : Word} {r : BitVec 8} {s : State} (hf : s.status.fault = false)
    (hd : decode w = .ok (.permute r)) (hr : r.toNat ≤ 24) :
    portHissue w s = .next { s with lanes := keccakP s.lanes ⟨r.toNat, by omega⟩ }.setDone := by
  rw [portHissue_of_decode_ok hf hd, exec_eq_runCommand,
    runCommand_ok (s := s.clearDone) hf (commandBody_permute_legal hr _)]
  rfl

theorem portHissue_permute_illegal {w : Word} {r : BitVec 8} {s : State} (hf : s.status.fault = false)
    (hd : decode w = .ok (.permute r)) (hr : 24 < r.toNat) :
    portHissue w s = .next (s.faultEntry .roundsRange w) := by
  have hbody : commandBody (.permute r) s.clearDone = .error .roundsRange :=
    bind_error.mpr (.inl (roundsOperand_illegal hr))
  rw [portHissue_of_decode_ok hf hd, exec_eq_runCommand, runCommand_error (s := s.clearDone) hf hbody,
    encode_of_decode hd, faultEntry_clearDone]

theorem sameNext_hissue {s t : State} {w : Word} (h : SameButInputContents s t)
    (hw : ∀ i, decode w = .ok i → ¬spongeClass i) : SameNext (portHissue w s) (portHissue w t) := by
  have ⟨_, hstatus, _⟩ := h
  cases hs : s.status.fault with
  | true =>
    have ht : t.status.fault = true := hstatus ▸ hs
    exact ⟨s, t, portHissue_faulted hs w, portHissue_faulted ht w, h⟩
  | false =>
    have ht : t.status.fault = false := hstatus ▸ hs
    cases hd : decode w with
    | error e =>
      exact ⟨_, _, portHissue_of_decode_error hs hd, portHissue_of_decode_error ht hd,
        sameButInputContents_faultEntry h _ w⟩
    | ok i =>
      obtain ⟨r, rfl⟩ := eq_permute_of_row_eq (not_not.mp fun hrow => hw i hd (row_ne_permute_iff.mp hrow))
      obtain hr | hr := le_or_gt r.toNat 24
      · exact ⟨_, _, portHissue_permute_legal hs hd hr, portHissue_permute_legal ht hd hr,
          sameButInputContents_permuted h _⟩
      · exact ⟨_, _, portHissue_permute_illegal hs hd hr, portHissue_permute_illegal ht hd hr,
          sameButInputContents_faultEntry h _ w⟩

theorem sameNext_performPort {s t : State} {op : PortOp} (h : SameButInputContents s t)
    (hop : ∀ w i, op = .hissue w → decode w = .ok i → ¬spongeClass i) :
    SameNext (performPort op s) (performPort op t) := by
  cases op with
  | hissue w => exact sameNext_hissue h fun i => hop w i rfl
  | hreset => exact ⟨_, _, rfl, rfl, sameButInputContents_hreset h⟩
  | hwrbuf b X => exact ⟨_, _, rfl, rfl, sameButInputContents_hwrbuf h b X⟩
  | hwrlane i v => exact ⟨_, _, rfl, rfl, sameButInputContents_hwrlane h i v⟩
  | hrdlane i => exact ⟨_, _, rfl, rfl, sameButInputContents_hrdlane h i⟩
  | hrdout => exact ⟨_, _, rfl, rfl, sameButInputContents_hrdout h⟩
  | hrdstatus => exact ⟨_, _, rfl, rfl, sameButInputContents_hrdstatus h⟩
  | hrdfcmd => exact ⟨_, _, rfl, rfl, sameButInputContents_hrdfcmd h⟩
  | hrdlen b => exact ⟨_, _, rfl, rfl, sameButInputContents_hrdlen h b⟩

/-- Settles O56: both engines have the same operation next, and it treats them alike. -/
theorem inputContentsCannotBeReadBack : Obligations.InputContentsCannotBeReadBack := by
  intro s t s' h hop hs
  have ⟨hlanes, hstatus, hfcmd, hconfig, hport, hrest⟩ := h
  cases hsport : s.port with
  | nil =>
    rw [step_idle hsport] at hs
    cases hs
    exact ⟨t, step_idle (hport ▸ hsport), h⟩
  | cons op rest =>
    have htaken : SameButInputContents { s with port := rest } { t with port := rest } :=
      ⟨hlanes, hstatus, hfcmd, hconfig, rfl, hrest⟩
    obtain ⟨s₁, t₁, hs₁, ht₁, hsame⟩ := sameNext_performPort (op := op) htaken fun w i hw =>
      hop w i rest (hw ▸ hsport)
    rw [step_port hsport, hs₁] at hs
    cases hs
    exact ⟨t₁, (step_port (hport ▸ hsport)).trans ht₁, hsame⟩

end Sys2Proof.Machine
end

section
/-! The host's call of the engine (R115): its five operations, one step each. -/

namespace Sys2Proof.Machine

theorem run_succ {M : Host.Core} {s t : M.State} (k : Nat) (h : M.step s = .next t) : M.run (k + 1) s = M.run k t := by
  rw [Host.Core.run, h]

theorem core_run_succ {s t : State} (k : Nat) (h : step s = .next t) : core.run (k + 1) s = core.run k t :=
  run_succ (M := core) k h

/-- An engine during a call: the host's remaining operations and the buffers have moved on, the rest is as before. -/
def State.during (s : State) (ops : List PortOp) (m : Memory) : State := { s with port := ops, mem := m }

section
variable {s : State} (hf : s.status.fault = false) {ops : List PortOp} {m : Memory}
include hf

theorem step_during_hwrbuf {b : BufName} {X : Bytes} (hb : b ≠ .out)
    (hX : ∀ n, s.config.bufMax = some n → X.length ≤ n) :
    step (s.during (.hwrbuf (some b) X :: ops) m) = .next (s.during ops (m.set b X)) :=
  congrArg Host.Outcome.next (portHwrbuf_fits (s := s.during ops m) hf hb (withinLimit_eq_true_iff.mpr hX))

theorem step_during_kmacxof256 {o : BitVec 32} {Z : Bytes} (h8 : o.toNat % 8 = 0)
    (hfits : o.toNat / 8 ≤ s.config.outMax.val) (hK : 8 * m.key.length < encLimit) (hC : 8 * m.cust.length < encLimit)
    (hZ : kmacxof256 m.key m.inp o.toNat m.cust = .ok Z) :
    step (s.during (issue (.kmacxof256 o) :: ops) m) = .next (s.during ops (m.set .out Z)).setDone := by
  have hbody := commandBody_kmacxof256_legal (s := (s.during ops m).clearDone) h8 hfits hK hC hZ
  calc step (s.during (issue (.kmacxof256 o) :: ops) m) = portHissue (encode (.kmacxof256 o)) (s.during ops m) := rfl
    _ = exec (.kmacxof256 o) (s.during ops m).clearDone := portHissue_of_decode_ok hf (decode_encode _)
    _ = runCommand (.kmacxof256 o) (commandBody (.kmacxof256 o)) (s.during ops m).clearDone := exec_eq_runCommand ..
    _ = .next ((s.during ops m).clearDone.setBuf .out Z).setDone :=
      runCommand_ok (s := (s.during ops m).clearDone) hf hbody
    _ = .next (s.during ops (m.set .out Z)).setDone := rfl

theorem step_during_hrdout :
    step (s.during (.hrdout :: ops) m).setDone = .next ((s.during ops m).setDone.giveHost (.bytes m.out)) :=
  congrArg Host.Outcome.next (portHrdout_live (s := (s.during ops m).setDone) hf)

end

/-- Settles O57: the three writes place the operands, the command reads them from there, and the read takes `OUT`. -/
theorem hostCallReturnsKmac : Obligations.HostCallReturnsKmac := by
  intro s K X C Z o rest hport hf hmax h8 hfits hK hC hZ
  rw [two_pow_2040] at hK hC
  have hstart : s = s.during (kmacCall K X o C ++ rest) s.mem := congrArg (fun ops => { s with port := ops }) hport
  refine ⟨_, (congrArg (core.run 5) hstart).trans <|
    (core_run_succ 4 (step_during_hwrbuf hf (b := .key) nofun ?key)).trans <|
    (core_run_succ 3 (step_during_hwrbuf hf (b := .inp) nofun ?inp)).trans <|
    (core_run_succ 2 (step_during_hwrbuf hf (b := .cust) nofun ?cust)).trans <|
    (core_run_succ 1 (step_during_kmacxof256 hf h8 hfits hK hC hZ)).trans <|
    core_run_succ 0 (step_during_hrdout hf), rfl, rfl, rfl⟩
  case key => exact fun n hn => (hmax n hn).1
  case inp => exact fun n hn => (hmax n hn).2.1
  case cust => exact fun n hn => (hmax n hn).2.2

end Sys2Proof.Machine
end

section
/-! The host layer's encryption (R118 to R122), and the hex conversion (R123). -/

namespace Sys2Proof.Machine

/-! ### Calls and their results -/

theorem hostBind_ok {α β : Type} {x : Except HostError α} {f : α → Except HostError β} {b : β} :
    (x >>= f) = .ok b ↔ ∃ a, x = .ok a ∧ f a = .ok b := by
  cases x <;> simp [bind, Except.bind]

theorem length_hostKmac {K X C Z : Bytes} {d : Nat} (h : hostKmac K X d C = .ok Z) : Z.length = d / 8 := by
  unfold hostKmac at h
  split_ifs at h
  cases hZ : kmacxof256 K X d C with
  | error c => simp [hZ] at h
  | ok Z' =>
    simp only [hZ] at h
    cases h
    exact length_kmacxof256 hZ

/-- A keystream is as long as its message. -/
theorem applyKeystream_ok_iff {ke X Y : Bytes} :
    applyKeystream ke X = .ok Y ↔
      ∃ k, k.length = X.length ∧ hostKmac ke [] (8 * X.length) custSKE = .ok k ∧ Y = xorBytes k X := by
  rw [applyKeystream, hostBind_ok]
  constructor
  · rintro ⟨k, hk, hY⟩
    exact ⟨k, (length_hostKmac hk).trans (by omega), hk, (Except.ok.inj hY).symm⟩
  · rintro ⟨k, -, hk, rfl⟩
    exact ⟨k, hk, rfl⟩

theorem length_xorBytes {k X : Bytes} (h : k.length = X.length) : (xorBytes k X).length = X.length := by
  rw [xorBytes, List.length_zipWith, h, Nat.min_self]

/-- The keystream added twice is gone. -/
theorem xorBytes_xorBytes {k X : Bytes} (h : k.length = X.length) : xorBytes k (xorBytes k X) = X := by
  refine List.ext_getElem (by rw [length_xorBytes (h.trans (length_xorBytes h).symm), length_xorBytes h]) ?_
  intro i _ _
  simp [xorBytes]

/-- Decryption of what a keystream encrypts: the keystream depends on the length alone. -/
theorem applyKeystream_applyKeystream {ke X Y : Bytes} (h : applyKeystream ke X = .ok Y) :
    Y.length = X.length ∧ applyKeystream ke Y = .ok X := by
  obtain ⟨k, hlen, hk, rfl⟩ := applyKeystream_ok_iff.mp h
  have hY := length_xorBytes hlen
  exact ⟨hY, applyKeystream_ok_iff.mpr ⟨k, hlen.trans hY.symm, hY ▸ hk, (xorBytes_xorBytes hlen).symm⟩⟩

theorem encrypt_ok {rand : Vector Byte 64} {m p c : Bytes} (h : encrypt rand m p = .ok c) :
    ∃ keys e t, deriveKeys rand.toList p = .ok keys ∧ applyKeystream keys.1 m = .ok e ∧
      hostKmac keys.2 m 512 custSKA = .ok t ∧ c = rand.toList ++ e ++ t := by
  obtain ⟨keys, hkeys, h⟩ := hostBind_ok.mp h
  obtain ⟨e, he, h⟩ := hostBind_ok.mp h
  obtain ⟨t, ht, h⟩ := hostBind_ok.mp h
  exact ⟨keys, e, t, hkeys, he, ht, (Except.ok.inj h).symm⟩

/-- All that decryption asks of a cryptogram that is long enough: its parts, and the tag of the message it finds. -/
theorem decrypt_ok_iff {c p m : Bytes} (hlen : 128 ≤ c.length) :
    decrypt c p = .ok m ↔
      ∃ keys, deriveKeys (slice c 0 64) p = .ok keys ∧
        applyKeystream keys.1 (slice c 64 (c.length - 64)) = .ok m ∧
        hostKmac keys.2 m 512 custSKA = .ok (slice c (c.length - 64) c.length) := by
  rw [decrypt, if_neg hlen.not_gt]
  constructor
  · intro h
    obtain ⟨keys, hkeys, h⟩ := hostBind_ok.mp h
    obtain ⟨m', hm, h⟩ := hostBind_ok.mp h
    obtain ⟨t, ht, h⟩ := hostBind_ok.mp h
    split_ifs at h with htag
    cases h
    exact ⟨keys, hkeys, hm, htag ▸ ht⟩
  · rintro ⟨keys, hkeys, hm, ht⟩
    exact hostBind_ok.mpr ⟨keys, hkeys, hostBind_ok.mpr ⟨m, hm, hostBind_ok.mpr ⟨_, ht, if_pos rfl⟩⟩⟩

theorem decrypt_too_short {c : Bytes} (h : c.length < 128) (p : Bytes) : decrypt c p = .error .cryptogramTooShort :=
  if_pos h

/-! ### Encryption and decryption -/

theorem slice_append_left {A : Bytes} {n : Nat} (hA : A.length = n) (B : Bytes) : slice (A ++ B) 0 n = A := by
  rw [slice, List.drop_zero, Nat.sub_zero, List.take_left' hA]

theorem slice_append_middle {A B : Bytes} {a b : Nat} (hA : A.length = a) (hB : a + B.length = b) (C : Bytes) :
    slice (A ++ B ++ C) a b = B := by
  rw [slice, List.append_assoc, List.drop_left' hA, List.take_left' (by omega)]

/-- Settles O58: the three parts are found where they were put, and the keystream is undone. -/
theorem decryptOfEncryptIsMessage : Obligations.DecryptOfEncryptIsMessage := by
  intro rand m p c h
  obtain ⟨keys, e, t, hkeys, he, ht, rfl⟩ := encrypt_ok h
  obtain ⟨hel, hm⟩ := applyKeystream_applyKeystream he
  have hrl : rand.toList.length = 64 := rand.length_toList
  have htl : t.length = 64 := length_hostKmac ht
  have hlen : (rand.toList ++ e ++ t).length = m.length + 128 := by
    rw [List.length_append, List.length_append, hrl, hel, htl]
    omega
  refine ⟨hlen, ?nonce, (decrypt_ok_iff (by omega)).mpr ⟨keys, ?keys, ?message, ?tag⟩⟩
  case nonce => rw [List.append_assoc, List.take_left' hrl]
  case keys => rwa [List.append_assoc, slice_append_left hrl]
  case message => rwa [slice_append_middle hrl (by omega)]
  case tag =>
    have htag : slice (rand.toList ++ e ++ t ++ []) (m.length + 128 - 64) (m.length + 128) = t :=
      slice_append_middle (by rw [List.length_append]; omega) (by omega) []
    rwa [hlen, ← List.append_nil (rand.toList ++ e ++ t), htag]

/-- Settles O59: the parts of a cryptogram that `decrypt` accepts are its first 64 bytes and its last 64. -/
theorem decryptReleasesOnlyAuthenticated : Obligations.DecryptReleasesOnlyAuthenticated := by
  refine ⟨fun c p h => decrypt_too_short h p, fun c p m h => ?released⟩
  case released =>
    have hlen : 128 ≤ c.length := by
      by_contra hshort
      cases (decrypt_too_short (not_le.mp hshort) p).symm.trans h
    obtain ⟨keys, hkeys, -, ht⟩ := (decrypt_ok_iff hlen).mp h
    have htag : slice c (c.length - 64) c.length = c.drop (c.length - 64) :=
      List.take_of_length_le (by rw [List.length_drop])
    exact ⟨hlen, keys, hkeys, htag ▸ ht⟩

/-! ### Hex conversion (R123) -/

theorem hexValue_hexDigit : ∀ n : Fin 16, hexValue (hexDigit n.val) = some n.val := by decide

theorem hexDigit_mem : ∀ n : Fin 16, hexDigit n.val ∈ "0123456789ABCDEF".toList := by decide

/-- The two digits of a byte. -/
theorem byte_digits (b : Byte) : b.toNat / 16 < 16 ∧ b.toNat % 16 < 16 := by
  have := b.isLt
  omega

theorem length_toHex (X : Bytes) : (toHex X).length = 2 * X.length := by
  induction X with
  | nil => rfl
  | cons b X ih =>
    rw [toHex, List.length_cons, List.length_cons, ih, List.length_cons]
    omega

theorem mem_toHex {X : Bytes} : ∀ ch ∈ toHex X, ch ∈ "0123456789ABCDEF".toList := by
  induction X with
  | nil => exact fun ch h => absurd h List.not_mem_nil
  | cons b X ih =>
    obtain ⟨hhi, hlo⟩ := byte_digits b
    rw [toHex, List.forall_mem_cons, List.forall_mem_cons]
    exact ⟨hexDigit_mem ⟨_, hhi⟩, hexDigit_mem ⟨_, hlo⟩, ih⟩

theorem hexPairs_toHex (X : Bytes) : hexPairs (toHex X) = some X := by
  induction X with
  | nil => rfl
  | cons b X ih =>
    obtain ⟨hhi, hlo⟩ := byte_digits b
    have hhigh := hexValue_hexDigit ⟨_, hhi⟩
    have hlow := hexValue_hexDigit ⟨_, hlo⟩
    have hbyte : BitVec.ofNat 8 (16 * (b.toNat / 16) + b.toNat % 16) = b := by
      rw [Nat.div_add_mod, BitVec.ofNat_toNat, BitVec.setWidth_eq]
    simp only [toHex, hexPairs, hhigh, hlow, ih, hbyte]

/-- Settles O60: the parser drops the white space, and reads back digit pair by digit pair. -/
theorem hexRoundTripIgnoresBlanks : Obligations.HexRoundTripIgnoresBlanks := by
  refine fun X => ⟨length_toHex X, mem_toHex, fun text h => ?_⟩
  rw [fromHex, h, hexPairs_toHex]

end Sys2Proof.Machine
end
